-- ==== Sys2Proof/Word.lean ====
section
/-! DEFINITION. The data of the cipher: bytes, 4-byte words (columns), and the three valid lengths.
Spec: 00_scope.md R6, R10, R11, R14. -/

namespace Sys2Proof

/-- A byte, bit 0 least significant (00_scope.md R10). -/
abbrev Byte := BitVec 8

/-- A word: 4 consecutive bytes of the schedule, or one column of a block; its first byte is `b0`
(00_scope.md R11, R14; 20_memory.md R52, R53). -/
structure Word where
  b0 : Byte
  b1 : Byte
  b2 : Byte
  b3 : Byte
  deriving DecidableEq, Repr

/-- The bytes of a word in index order. -/
def Word.toList (w : Word) : List Byte := [w.b0, w.b1, w.b2, w.b3]

/-- Exclusive-or of two words, byte by byte (00_scope.md R12). -/
def Word.xor (v w : Word) : Word := ⟨v.b0 ^^^ w.b0, v.b1 ^^^ w.b1, v.b2 ^^^ w.b2, v.b3 ^^^ w.b3⟩

/-- The valid block and key lengths: exactly 16, 24 and 32 bytes (00_scope.md R6). -/
inductive Size where
  | b16
  | b24
  | b32
  deriving DecidableEq, Repr

end Sys2Proof
end

