-- ==== Sys2Proof/Config.lean ====
section
/-! DEFINITION. The fixed parameters of this hardware (00_scope.md R6, R7; 10_state.md R20).
None is configurable, and no free value is needed: the spec leaves no result of a command open. The two
parameters the spec calls OPEN, `LATENCY` and `HOST_KEY`, are read by no rule of the hardware (log 5). -/

namespace Sys2Proof.Config

/-- The identity string the spec uses (00_scope.md R2; 92_eei_decisions.md D2). No rule reads it. -/
def identity : String := "rijndael_core/nptr-each/D0-v7"

/-- Capacity of `KEY` in bytes (10_state.md R20). -/
def keyCapacity : Nat := 32

/-- Capacity of `KS` in bytes (10_state.md R20). -/
def ksCapacity : Nat := 480

/-- Capacity of `ST` in bytes (10_state.md R20). -/
def stCapacity : Nat := 32

/-- Bytes carried by `DIN` and by `DOUT` (20_memory.md R55). -/
def busBytes : Nat := 32

/-- Entries of the round-constant table (00_scope.md R6; 40_tables.md R118). -/
def rconEntries : Nat := 29

end Sys2Proof.Config
end

