-- ==== Sys2Proof/Syntax.lean ====
section
/-! DEFINITION. Commands as the host presents them, and the 15 instructions they select.
Spec: 00_scope.md R2, R8; 30_encoding.md R80 to R83. -/

namespace Sys2Proof

/-- One command: the 16-bit command word and the 256-bit data operand, presented together
(30_encoding.md R80). -/
structure Command where
  cw  : BitVec 16
  din : BitVec 256
  deriving DecidableEq, Repr

/-- The 15 commands (30_encoding.md R83). An argument is the unsigned integer `ARG` exactly as encoded
(R82): a length in bytes (`k`, `b`) or a round index (`r`). A command that uses the data operand carries
all of it; the others carry none, because `DIN` is ignored for them (R82, log 10). -/
inductive Instr where
  /-- `LDKEY k, key` (41_key_schedule.md R140). -/
  | ldkey (k : Nat) (din : BitVec 256)
  /-- `EXPAND b` (41_key_schedule.md R142). -/
  | expand (b : Nat)
  /-- `RDRK r` (41_key_schedule.md R143). -/
  | rdrk (r : Nat)
  /-- `STAT` (41_key_schedule.md R144). -/
  | stat
  /-- `LDST b, block` (42_fwd_transform.md R170). -/
  | ldst (b : Nat) (din : BitVec 256)
  /-- `RDST` (42_fwd_transform.md R171). -/
  | rdst
  /-- `ADDRK r` (42_fwd_transform.md R172). -/
  | addrk (r : Nat)
  /-- `SUBB` (42_fwd_transform.md R173). -/
  | subb
  /-- `SHROW` (42_fwd_transform.md R174). -/
  | shrow
  /-- `MIXC` (42_fwd_transform.md R175). -/
  | mixc
  /-- `ENC b, block` (42_fwd_transform.md R177). -/
  | enc (b : Nat) (din : BitVec 256)
  /-- `ISUBB` (43_inv_transform.md R200). -/
  | isubb
  /-- `ISHROW` (43_inv_transform.md R201). -/
  | ishrow
  /-- `IMIXC` (43_inv_transform.md R202). -/
  | imixc
  /-- `DEC b, block` (43_inv_transform.md R204). -/
  | dec (b : Nat) (din : BitVec 256)
  deriving DecidableEq, Repr

end Sys2Proof
end

