-- ==== Sys2Proof/WellFormed.lean ====
section
/-! DEFINITION. Which terms of `Instr` an encoding exists for: `ARG` is one byte, `0..255` (30_encoding.md
R81, R82). A bad length or round index is well formed: it selects the command, which then fails by its own
rule (R85). -/

namespace Sys2Proof

/-- `ARG` fits its 8-bit field (30_encoding.md R81). -/
def argFits (a : Nat) : Bool := decide (a ≤ 255)

/-- The instruction has an encoding. -/
def Instr.wellFormed : Instr → Bool
  | .ldkey k _ => argFits k
  | .expand b => argFits b
  | .rdrk r => argFits r
  | .stat => true
  | .ldst b _ => argFits b
  | .rdst => true
  | .addrk r => argFits r
  | .subb => true
  | .shrow => true
  | .mixc => true
  | .enc b _ => argFits b
  | .isubb => true
  | .ishrow => true
  | .imixc => true
  | .dec b _ => argFits b

end Sys2Proof
end

