-- ==== Sys2Proof/Decode.lean ====
section
/-! DEFINITION. The bit-level layout of the ports, the opcode table, the decoder, the encoder and the
assembler's operand layout. Spec: 20_memory.md R55; 30_encoding.md R81 to R89. -/

namespace Sys2Proof

/-! ### Bytes on a 256-bit bus (20_memory.md R55) -/

/-- Byte `i` of a bus: bits `[8i+7 : 8i]`. -/
def busByte (bus : BitVec 256) (i : Nat) : Byte := bus.extractLsb' (8 * i) 8

/-- Bytes `0..n-1` of a bus, byte 0 first. -/
def busTake (bus : BitVec 256) (n : Nat) : List Byte := (List.range n).map (busByte bus)

/-- The bus that carries the given bytes, byte 0 in bits `[7:0]`; the bytes above them are zero. -/
def busOf : List Byte → BitVec 256
  | [] => 0#256
  | b :: bs => b.setWidth 256 ||| (busOf bs <<< 8)

/-! ### Fields of the command word (30_encoding.md R81) -/

/-- `OP = CW[15:8]`. -/
def opField (cw : BitVec 16) : BitVec 8 := cw.extractLsb' 8 8

/-- `ARG = CW[7:0]`. -/
def argField (cw : BitVec 16) : BitVec 8 := cw.extractLsb' 0 8

/-- The command word `{OP, ARG}`: `OP` in the high byte. -/
def packWord (op arg : BitVec 8) : BitVec 16 := (op.setWidth 16 <<< 8) ||| arg.setWidth 16

/-! ### The opcode table (30_encoding.md R83) -/

/-- One row of the table: a word `w` selects the row when `w &&& mask = pattern`. -/
structure OpcodeRow where
  mnemonic : String
  pattern  : BitVec 16
  mask     : BitVec 16
  deriving DecidableEq, Repr

/-- The word selects the row (30_encoding.md R83). -/
def OpcodeRow.selectedBy (row : OpcodeRow) (w : BitVec 16) : Bool := (w &&& row.mask) == row.pattern

/-- The 15 rows of 30_encoding.md R83. -/
def opcodeTable : List OpcodeRow :=
  [ ⟨"LDKEY",  0x1000#16, 0xFF00#16⟩,
    ⟨"EXPAND", 0x1100#16, 0xFF00#16⟩,
    ⟨"RDRK",   0x1200#16, 0xFF00#16⟩,
    ⟨"STAT",   0x1300#16, 0xFFFF#16⟩,
    ⟨"LDST",   0x2000#16, 0xFF00#16⟩,
    ⟨"RDST",   0x2100#16, 0xFFFF#16⟩,
    ⟨"ADDRK",  0x2200#16, 0xFF00#16⟩,
    ⟨"SUBB",   0x2300#16, 0xFFFF#16⟩,
    ⟨"SHROW",  0x2400#16, 0xFFFF#16⟩,
    ⟨"MIXC",   0x2500#16, 0xFFFF#16⟩,
    ⟨"ENC",    0x2F00#16, 0xFF00#16⟩,
    ⟨"ISUBB",  0x3300#16, 0xFFFF#16⟩,
    ⟨"ISHROW", 0x3400#16, 0xFFFF#16⟩,
    ⟨"IMIXC",  0x3500#16, 0xFFFF#16⟩,
    ⟨"DEC",    0x3F00#16, 0xFF00#16⟩ ]

/-! ### Decoding (30_encoding.md R88) -/

/-- Why a word is reserved (30_encoding.md R84): its `OP` is in no row, or its `ARG` must be zero and is
not. The machine answers both with `ERR_ILLEGAL`. -/
inductive DecodeError where
  | unknownOp (op : BitVec 8)
  | nonzeroArg (op arg : BitVec 8)
  deriving DecidableEq, Repr

/-- Step (3) of 30_encoding.md R88: a command without argument requires `ARG = 0`. -/
def requireZeroArg (op arg : BitVec 8) (i : Instr) : Except DecodeError Instr :=
  if arg = 0#8 then .ok i else .error (.nonzeroArg op arg)

/-- The decoder (30_encoding.md R88): split the word, look `OP` up, check a must-be-zero `ARG`. Total, and
it reads no state. -/
def decode (c : Command) : Except DecodeError Instr :=
  let op := opField c.cw
  let arg := argField c.cw
  match op with
  | 0x10#8 => .ok (.ldkey arg.toNat c.din)
  | 0x11#8 => .ok (.expand arg.toNat)
  | 0x12#8 => .ok (.rdrk arg.toNat)
  | 0x13#8 => requireZeroArg op arg .stat
  | 0x20#8 => .ok (.ldst arg.toNat c.din)
  | 0x21#8 => requireZeroArg op arg .rdst
  | 0x22#8 => .ok (.addrk arg.toNat)
  | 0x23#8 => requireZeroArg op arg .subb
  | 0x24#8 => requireZeroArg op arg .shrow
  | 0x25#8 => requireZeroArg op arg .mixc
  | 0x2F#8 => .ok (.enc arg.toNat c.din)
  | 0x33#8 => requireZeroArg op arg .isubb
  | 0x34#8 => requireZeroArg op arg .ishrow
  | 0x35#8 => requireZeroArg op arg .imixc
  | 0x3F#8 => .ok (.dec arg.toNat c.din)
  | _ => .error (.unknownOp op)

/-- The command whose bits are `w`, counted as spec/opcode_table.json counts them: bits 15..0 are `CW`; the
bits above are `DIN`, bit 0 first. Bits of `w` at or above `nbits` are taken as 0 (log 11). -/
def commandOfBits (nbits w : Nat) : Command :=
  ⟨BitVec.ofNat 16 (w % 2 ^ nbits), BitVec.ofNat 256 ((w % 2 ^ nbits) >>> 16)⟩

/-- The instruction the decoder reads from the word `w` of `nbits` bits. -/
def decodeTableWord (nbits w : Nat) : Option Instr :=
  match decode (commandOfBits nbits w) with
  | .ok i => some i
  | .error _ => none

/-! ### Encoding (30_encoding.md R83) -/

/-- `OP` of each command (30_encoding.md R83). -/
def opcode : Instr → BitVec 8
  | .ldkey _ _ => 0x10#8
  | .expand _ => 0x11#8
  | .rdrk _ => 0x12#8
  | .stat => 0x13#8
  | .ldst _ _ => 0x20#8
  | .rdst => 0x21#8
  | .addrk _ => 0x22#8
  | .subb => 0x23#8
  | .shrow => 0x24#8
  | .mixc => 0x25#8
  | .enc _ _ => 0x2F#8
  | .isubb => 0x33#8
  | .ishrow => 0x34#8
  | .imixc => 0x35#8
  | .dec _ _ => 0x3F#8

/-- `ARG` of each command; zero where the command takes none (30_encoding.md R82). -/
def argOf : Instr → Nat
  | .ldkey k _ => k
  | .expand b => b
  | .rdrk r => r
  | .stat => 0
  | .ldst b _ => b
  | .rdst => 0
  | .addrk r => r
  | .subb => 0
  | .shrow => 0
  | .mixc => 0
  | .enc b _ => b
  | .isubb => 0
  | .ishrow => 0
  | .imixc => 0
  | .dec b _ => b

/-- The data operand a command carries; zero where it uses none. -/
def dinOf : Instr → BitVec 256
  | .ldkey _ d => d
  | .expand _ => 0#256
  | .rdrk _ => 0#256
  | .stat => 0#256
  | .ldst _ d => d
  | .rdst => 0#256
  | .addrk _ => 0#256
  | .subb => 0#256
  | .shrow => 0#256
  | .mixc => 0#256
  | .enc _ d => d
  | .isubb => 0#256
  | .ishrow => 0#256
  | .imixc => 0#256
  | .dec _ d => d

/-- The command that selects a well-formed instruction. -/
def encode (i : Instr) : Command := ⟨packWord (opcode i) (BitVec.ofNat 8 (argOf i)), dinOf i⟩

/-! ### The assembler's operand layout (30_encoding.md R89) -/

/-- The command written `MNEMONIC arg, hexbytes`: the row's pattern with `ARG = arg`, and `DIN[0..n)` the
`n` given bytes, byte 0 first, the missing ones zero (30_encoding.md R89). `none` where no row has the
mnemonic, where `arg` is not `0..255`, or where the row takes no argument and `arg` is not 0. -/
def assemble (mnemonic : String) (arg : Nat) (bytes : List Byte) : Option Command :=
  match opcodeTable.find? (fun row => row.mnemonic == mnemonic) with
  | none => none
  | some row =>
    let cw := row.pattern ||| BitVec.ofNat 16 arg
    if argFits arg && row.selectedBy cw then some ⟨cw, busOf bytes⟩ else none

end Sys2Proof
end

