-- ==== Sys2Proof/Machine/State.lean ====
section
/-! DEFINITION. The state of the machine: the six registers of 10_state.md R20, and the host's side of the
two ports (logs 1, 2). Spec: 10_state.md; 30_encoding.md R80, R87; 70_reset_and_hazards.md R300, R301. -/

namespace Sys2Proof.Machine

/-- The three read-write index spaces (20_memory.md R50). -/
inductive Space where
  | key
  | ks
  | st
  deriving DecidableEq, Repr

/-- One response (30_encoding.md R80, R87). -/
structure Response where
  status : BitVec 8
  info   : BitVec 16
  len    : BitVec 8
  dout   : BitVec 256
  deriving DecidableEq, Repr

/-- What the host does to the block: present a command (30_encoding.md R80), or assert `rst`
(70_reset_and_hazards.md R300), between commands (`none`) or while the given command is executing
(`some c`, R301). -/
inductive HostEvent where
  | command (c : Command)
  | reset (abandoned : Option Command)
  deriving DecidableEq, Repr

/-- The whole architectural state (10_state.md R20): three byte arrays and three 8-bit length registers.
An array holds exactly the bytes that have a value (R21, R23, R25). -/
structure Regs where
  /-- The cipher key, `KLEN` bytes (10_state.md R21). -/
  key  : List Byte
  /-- Number of valid bytes of `KEY`: 0, 16, 24 or 32 (10_state.md R22). -/
  klen : BitVec 8
  /-- The expanded key schedule (10_state.md R23). -/
  ks   : List Byte
  /-- The block length the schedule was derived for: 0, 16, 24 or 32 (10_state.md R24). -/
  ksb  : BitVec 8
  /-- The working block, `SLEN` bytes (10_state.md R25). -/
  st   : List Byte
  /-- Number of valid bytes of `ST`: 0, 16, 24 or 32 (10_state.md R26). -/
  slen : BitVec 8
  deriving DecidableEq, Repr

/-- The machine: its registers, and the host's side of the ports. -/
structure State extends Regs where
  /-- The host's events not yet taken, next first (the model's own field, log 1). -/
  inbox  : List HostEvent
  /-- The responses produced so far, oldest first (the model's own field, log 2). -/
  outbox : List Response
  deriving DecidableEq, Repr

/-- Why a step stops. The hardware has no fault (93_implementation_defined.md, Part 1); each of these is
raised only in a state that breaks the invariants of 10_state.md R22, R24, R26, R27, which no run from reset
reaches, and is SAFE: the model stops where no rule gives a value (log 4). -/
inductive Fault where
  /-- Raised where `memRead` or `memWriteSt` (Machine/Ops.lean) has no answer: an access outside an array, which
  no rule defines (00_scope.md R13). Safe. -/
  | outOfBounds (space : Space)
  /-- Raised where a rule needs a length to be 16, 24 or 32 (`NR`, `ROW_SHIFT`; 40_tables.md R120, R123)
  and a length register holds another non-zero value. Safe. -/
  | illegalLength (len : BitVec 8)
  deriving DecidableEq, Repr

/-- Why an instruction has no meaning. No arm of `exec` uses it in this model. Safe. -/
inductive Refusal where
  /-- Raised by `exec` for an instruction that is not modelled. Safe. -/
  | notModelled (mnemonic : String)
  deriving DecidableEq, Repr

/-- The registers after reset (10_state.md R33, 70_reset_and_hazards.md R300). -/
def Regs.reset : Regs := { key := [], klen := 0#8, ks := [], ksb := 0#8, st := [], slen := 0#8 }

/-- The machine right after reset: the registers of 70_reset_and_hazards.md R300, no command in flight, no
response pending, and no host event yet (logs 1, 2). -/
def State.reset : State := { Regs.reset with inbox := [], outbox := [] }

end Sys2Proof.Machine
end

