-- ==== Sys2Proof/Machine/Operands.lean ====
section
/-! DEFINITION. Operand forms: a length argument and a length register, both checked against {16, 24, 32}
(00_scope.md R6; 60_exceptions.md R262, R263). The data operand's bytes are `busTake` of Decode.lean
(30_encoding.md R82). -/

namespace Sys2Proof

/-- A valid length in bytes. -/
def Size.bytes : Size → Nat
  | .b16 => 16
  | .b24 => 24
  | .b32 => 32

/-- Number of columns of a block (`Nb`), or of words of a key (`Nk`), of this length (00_scope.md R6). -/
def Size.columns (b : Size) : Nat := b.bytes / 4

/-- The check `n in {16, 24, 32}` (41_key_schedule.md R140 and the other length-taking commands). -/
def Size.ofNat? (n : Nat) : Option Size :=
  if n = 16 then some .b16 else if n = 24 then some .b24 else if n = 32 then some .b32 else none

/-- The length held by a length register; `none` for 0 ("absent") and for every value that the register
never holds (10_state.md R22, R24, R26). -/
def Size.ofReg? (r : BitVec 8) : Option Size := Size.ofNat? r.toNat

/-- The length register value of a valid length. -/
def Size.toReg (b : Size) : BitVec 8 := BitVec.ofNat 8 b.bytes

end Sys2Proof
end

