-- ==== Sys2Proof/Machine/Flags.lean ====
section
/-! DEFINITION. The hardware has no flags (10_state.md R29): the only outcome a command reports is the
response's `STATUS` and `INFO`. Spec: 60_exceptions.md R261; 30_encoding.md R87. -/

namespace Sys2Proof.Machine

/-- The five errors a command can end with, each with what its `INFO` is computed from
(60_exceptions.md R261). -/
inductive CommandError where
  /-- `ERR_KEYSIZE` (R262): the attempted key length in bytes. -/
  | keySize (arg : Nat)
  /-- `ERR_BLOCKSIZE` (R263): the attempted block length in bytes. -/
  | blockSize (arg : Nat)
  /-- `ERR_SEQ` (R264). -/
  | seq
  /-- `ERR_RANGE` (R265): the round index. -/
  | range (arg : Nat)
  /-- `ERR_ILLEGAL` (R266): the command word. -/
  | illegal (cw : BitVec 16)
  deriving DecidableEq, Repr

/-- `STATUS` of a success (60_exceptions.md R261). -/
def statusOk : BitVec 8 := 0x00#8

/-- `STATUS` of each error (60_exceptions.md R261). -/
def CommandError.status : CommandError → BitVec 8
  | .keySize _ => 0x01#8
  | .blockSize _ => 0x02#8
  | .seq => 0x03#8
  | .range _ => 0x04#8
  | .illegal _ => 0x05#8

/-- `INFO` of each error (60_exceptions.md R261): the bit length `8*ARG`, 0, the index, or the word. -/
def CommandError.info : CommandError → BitVec 16
  | .keySize a => BitVec.ofNat 16 (8 * a)
  | .blockSize a => BitVec.ofNat 16 (8 * a)
  | .seq => 0#16
  | .range a => BitVec.ofNat 16 a
  | .illegal cw => cw

end Sys2Proof.Machine
end

