-- ==== Sys2Proof/Machine/Rijndael.lean ====
section
/-! DEFINITION. The pure functions of the cipher: key expansion, the seven round transforms, Encrypt and
Decrypt. Spec: 41_key_schedule.md R141; 42_fwd_transform.md R172 to R176; 43_inv_transform.md R200 to R203. -/

namespace Sys2Proof.Machine

/-- Byte `i` of a sequence. The rules read in-range indices only (00_scope.md R12, R13), and so do the
callers below when their lists have the lengths the rules give them; the default is never used then
(log 12). -/
def byteAt (l : List Byte) (i : Nat) : Byte := l.getD i 0#8

/-- The word `S[i..i+4)` (20_memory.md R52). -/
def wordAt (l : List Byte) (i : Nat) : Word :=
  ⟨byteAt l i, byteAt l (i + 1), byteAt l (i + 2), byteAt l (i + 3)⟩

/-! ### Key expansion (41_key_schedule.md R141) -/

/-- First word of a segment: rotate left by one byte, substitute, add the round constant to the first byte
(the first branch of 41_key_schedule.md R141). -/
def rotSubRcon (t : Word) (j : Nat) : Word := ⟨sbox t.b1 ^^^ rcon j, sbox t.b2, sbox t.b3, sbox t.b0⟩

/-- Substitution only (the second branch of 41_key_schedule.md R141). -/
def subWord (t : Word) : Word := ⟨sbox t.b0, sbox t.b1, sbox t.b2, sbox t.b3⟩

/-- What the previous word `t` becomes at byte index `i`: 41_key_schedule.md R141's two branches, the second
for 32-byte keys only (90_conflicts.md C2), and "otherwise t is used unchanged". -/
def expandTemp (k : Size) (i j : Nat) (t : Word) : Word :=
  if i % k.bytes = 0 then rotSubRcon t j
  else if k.bytes = 32 ∧ i % k.bytes = 16 then subWord t
  else t

/-- The loop of 41_key_schedule.md R141, `n` words long, from byte index `i` and round-constant index `j`,
on the schedule `w` made so far. It answers the schedule and the round-constant index reached. -/
def expandLoop (k : Size) : Nat → Nat → Nat → List Byte → List Byte × Nat
  | 0, _, j, w => (w, j)
  | n + 1, i, j, w =>
    let t := expandTemp k i j (wordAt w (i - 4))
    let new := (wordAt w (i - k.bytes)).xor t
    expandLoop k n (i + 4) (if i % k.bytes = 0 then j + 1 else j) (w ++ new.toList)

/-- The whole expansion: `W[0..k) = K`, then one word per step while `i < L`; the round-constant index starts
at 0 (41_key_schedule.md R141; 10_state.md R30). -/
def expandRun (b k : Size) (key : List Byte) : List Byte × Nat :=
  expandLoop k ((scheduleBytes b k - k.bytes) / 4) k.bytes 0 key

/-- `ExpandKey(K, b)` for a key of length `k` (41_key_schedule.md R141). -/
def expandKey (b k : Size) (key : List Byte) : List Byte := (expandRun b k key).1

/-- How many round constants the expansion uses (41_key_schedule.md R146). -/
def rconUsed (b k : Size) (key : List Byte) : Nat := (expandRun b k key).2

/-! ### Round transforms on a block -/

/-- Round key `r` of a schedule for block length `b`: the `b` bytes from byte index `r*b`
(20_memory.md R54). -/
def roundKey (b : Size) (w : List Byte) (r : Nat) : List Byte := (w.drop (r * b.bytes)).take b.bytes

/-- XOR a block with a round key, byte by byte (42_fwd_transform.md R172). -/
def xorBytes (s rk : List Byte) : List Byte := List.zipWith (· ^^^ ·) s rk

/-- `AddRoundKey(state, schedule, r)` (42_fwd_transform.md R172). -/
def addRoundKey (b : Size) (w : List Byte) (r : Nat) (s : List Byte) : List Byte := xorBytes s (roundKey b w r)

/-- SubBytes (42_fwd_transform.md R173). -/
def subBytes (s : List Byte) : List Byte := s.map sbox

/-- Inverse SubBytes (43_inv_transform.md R200). -/
def invSubBytes (s : List Byte) : List Byte := s.map invSbox

/-- `out[i] = in[table[i]]`, every byte read before any is written (42_fwd_transform.md R174). -/
def gather (table : List Nat) (s : List Byte) : List Byte := table.map (byteAt s)

/-- ShiftRows (42_fwd_transform.md R174). -/
def shiftRows (b : Size) (s : List Byte) : List Byte := gather (rowShift b) s

/-- Inverse ShiftRows (43_inv_transform.md R201). -/
def invShiftRows (b : Size) (s : List Byte) : List Byte := gather (invRowShift b) s

/-- MixColumns of one column (42_fwd_transform.md R175). -/
def mixColumn (a : Word) : Word :=
  ⟨mul2 a.b0 ^^^ mul3 a.b1 ^^^ a.b2 ^^^ a.b3,
   a.b0 ^^^ mul2 a.b1 ^^^ mul3 a.b2 ^^^ a.b3,
   a.b0 ^^^ a.b1 ^^^ mul2 a.b2 ^^^ mul3 a.b3,
   mul3 a.b0 ^^^ a.b1 ^^^ a.b2 ^^^ mul2 a.b3⟩

/-- Inverse MixColumns of one column (43_inv_transform.md R202). -/
def invMixColumn (a : Word) : Word :=
  ⟨mul14 a.b0 ^^^ mul11 a.b1 ^^^ mul13 a.b2 ^^^ mul9 a.b3,
   mul9 a.b0 ^^^ mul14 a.b1 ^^^ mul11 a.b2 ^^^ mul13 a.b3,
   mul13 a.b0 ^^^ mul9 a.b1 ^^^ mul14 a.b2 ^^^ mul11 a.b3,
   mul11 a.b0 ^^^ mul13 a.b1 ^^^ mul9 a.b2 ^^^ mul14 a.b3⟩

/-- Apply `f` to each whole column, `c = 0 .. len/4 - 1` (20_memory.md R53; 42_fwd_transform.md R175). -/
def mapColumns (f : Word → Word) : List Byte → List Byte
  | a0 :: a1 :: a2 :: a3 :: rest => (f ⟨a0, a1, a2, a3⟩).toList ++ mapColumns f rest
  | rest => rest

/-- MixColumns (42_fwd_transform.md R175). -/
def mixColumns (s : List Byte) : List Byte := mapColumns mixColumn s

/-- Inverse MixColumns (43_inv_transform.md R202). -/
def invMixColumns (s : List Byte) : List Byte := mapColumns invMixColumn s

/-! ### Encrypt (42_fwd_transform.md R176) -/

/-- One full round `r`: SubBytes, ShiftRows, MixColumns, AddRoundKey. -/
def encRound (b : Size) (w : List Byte) (r : Nat) (s : List Byte) : List Byte :=
  addRoundKey b w r (mixColumns (shiftRows b (subBytes s)))

/-- The full rounds `1 .. n`, in that order. -/
def encRounds (b : Size) (w : List Byte) : Nat → List Byte → List Byte
  | 0, s => s
  | n + 1, s => encRound b w (n + 1) (encRounds b w n s)

/-- Encrypt a block under the schedule `w` with `nr` rounds: round key 0, `nr - 1` full rounds, and the final
round without MixColumns (42_fwd_transform.md R176). -/
def encryptWith (b : Size) (w : List Byte) (nr : Nat) (p : List Byte) : List Byte :=
  addRoundKey b w nr (shiftRows b (subBytes (encRounds b w (nr - 1) (addRoundKey b w 0 p))))

/-- `Encrypt(K, P)` for a key of length `k` and a block of length `b` (42_fwd_transform.md R176). -/
def encrypt (b k : Size) (key p : List Byte) : List Byte :=
  encryptWith b (expandKey b k key) (roundCount b k) p

/-! ### Decrypt (43_inv_transform.md R203) -/

/-- One round `r` of the loop: AddRoundKey, InvMixColumns, InvShiftRows, InvSubBytes. -/
def decRound (b : Size) (w : List Byte) (r : Nat) (s : List Byte) : List Byte :=
  invSubBytes (invShiftRows b (invMixColumns (addRoundKey b w r s)))

/-- The rounds `n` down to `1`, in that order. -/
def decRounds (b : Size) (w : List Byte) : Nat → List Byte → List Byte
  | 0, s => s
  | n + 1, s => decRounds b w n (decRound b w (n + 1) s)

/-- Decrypt a block under the schedule `w` with `nr` rounds (43_inv_transform.md R203). -/
def decryptWith (b : Size) (w : List Byte) (nr : Nat) (c : List Byte) : List Byte :=
  addRoundKey b w 0 (decRounds b w (nr - 1) (invSubBytes (invShiftRows b (addRoundKey b w nr c))))

/-- `Decrypt(K, C)` for a key of length `k` and a block of length `b` (43_inv_transform.md R203). -/
def decrypt (b k : Size) (key c : List Byte) : List Byte :=
  decryptWith b (expandKey b k key) (roundCount b k) c

end Sys2Proof.Machine
end

