-- ==== Sys2Proof/Machine/Ops.lean ====
section
/-! DEFINITION. The shared operations over the registers and the ports: reading and writing an index space,
the response of a command, the error entry, the prerequisites of 60_exceptions.md R264, and taking the host's
next event. Spec: 00_scope.md R13; 30_encoding.md R80, R87; 60_exceptions.md R264 to R269;
70_reset_and_hazards.md R300, R301. -/

namespace Sys2Proof.Machine

/-- The result of one command or one step. -/
abbrev Result := Host.Outcome State Fault Refusal

/-! ### Index spaces (00_scope.md R13; 20_memory.md R50) -/

/-- The bytes of a space. -/
def Regs.bytes (s : Regs) : Space → List Byte
  | .key => s.key
  | .ks => s.ks
  | .st => s.st

/-- `MemRead(space, addr, n)`: the `n` bytes from `addr`; defined only when `addr + n <= len(space)`
(00_scope.md R13). -/
def memRead (sp : Space) (addr n : Nat) (s : Regs) : Option (List Byte) :=
  if addr + n ≤ (s.bytes sp).length then some (((s.bytes sp).drop addr).take n) else none

/-- A sequence with the bytes from `addr` replaced by `v`. -/
def splice (l : List Byte) (addr : Nat) (v : List Byte) : List Byte :=
  l.take addr ++ v ++ l.drop (addr + v.length)

/-- `ST[0..n) <- v` in a space, `n` the length of `v`: `MemWrite(ST, addr, n, v)`, the only partial write a
rule makes (the transforms write `ST` in place; `KEY` and `KS` are written only as a whole, 10_state.md R21,
R23). Defined only when `addr + n <= len(ST)` (00_scope.md R13). -/
def memWriteSt (addr : Nat) (v : List Byte) (s : State) : Option State :=
  if addr + v.length ≤ s.st.length then some { s with st := splice s.st addr v } else none

/-! ### Responses (30_encoding.md R87) -/

/-- `respond(status, info, S)`: `LEN` is the length of `S`, `DOUT` carries `S` and zeros above it. The
response joins the list the host sees (log 2). -/
def respond (status : BitVec 8) (info : BitVec 16) (data : List Byte) (s : State) : State :=
  { s with outbox := s.outbox ++ [⟨status, info, BitVec.ofNat 8 data.length, busOf data⟩] }

/-- `respond OK(S)` (00_scope.md R13). -/
def respondOk (data : List Byte) (s : State) : Result := .next (respond statusOk 0#16 data s)

/-- Error entry, the one shared operation of every failing command (60_exceptions.md R268): no register is
written and the response carries the code, `INFO`, `LEN = 0` and `DOUT = 0`. There is nothing to return from
(R269): the next command proceeds. -/
def raiseError (e : CommandError) (s : State) : Result := .next (respond e.status e.info [] s)

/-! ### Prerequisites (60_exceptions.md R264) -/

/-- A command that needs the key: `ERR_SEQ` when `KLEN = 0`, else go on with its length and its bytes
(41_key_schedule.md R142, 42_fwd_transform.md R177). -/
def withKey (s : State) (go : Size → List Byte → Result) : Result :=
  if s.klen = 0#8 then raiseError .seq s
  else match Size.ofReg? s.klen with
    | none => .fault (.illegalLength s.klen)
    | some k =>
      match memRead .key 0 k.bytes s.toRegs with
      | none => .fault (.outOfBounds .key)
      | some key => go k key

/-- A command that needs the working block: `ERR_SEQ` when `SLEN = 0`, else go on with its bytes
(42_fwd_transform.md R171, R173). -/
def withBlock (s : State) (go : List Byte → Result) : Result :=
  if s.slen = 0#8 then raiseError .seq s
  else match memRead .st 0 s.slen.toNat s.toRegs with
    | none => .fault (.outOfBounds .st)
    | some blk => go blk

/-- A command that names a round key of the held schedule: `ERR_RANGE` when the index exceeds
`NR(KSB, KLEN)`, else go on with the round key's bytes (41_key_schedule.md R143, 42_fwd_transform.md R172). -/
def withRoundKey (r : Nat) (s : State) (go : List Byte → Result) : Result :=
  match roundCount? s.ksb s.klen with
  | none => .fault (.illegalLength s.ksb)
  | some nr =>
    if nr < r then raiseError (.range r) s
    else match memRead .ks (r * s.ksb.toNat) s.ksb.toNat s.toRegs with
      | none => .fault (.outOfBounds .ks)
      | some rk => go rk

/-- Write the transformed block back in place and answer `OK` (42_fwd_transform.md R172 to R175). -/
def storeBlock (blk : List Byte) (s : State) : Result :=
  match memWriteSt 0 blk s with
  | none => .fault (.outOfBounds .st)
  | some t => respondOk [] t

/-- A transform of the working block alone: the block is read whole before any byte is written
(20_memory.md R58). -/
def transformBlock (f : List Byte → List Byte) (s : State) : Result :=
  withBlock s fun blk => storeBlock (f blk) s

/-- A transform whose table is chosen by `SLEN` (42_fwd_transform.md R174, 43_inv_transform.md R201). -/
def transformSized (f : Size → List Byte → List Byte) (s : State) : Result :=
  withBlock s fun blk =>
    match Size.ofReg? s.slen with
    | none => .fault (.illegalLength s.slen)
    | some b => storeBlock (f b blk) s

/-- Key expansion into `KS`, the only way it is written (10_state.md R23): the whole schedule, and `KSB`. -/
def holdSchedule (b k : Size) (key : List Byte) (s : State) : State :=
  { s with ks := expandKey b k key, ksb := b.toReg }

/-- A block in `ST`, replaced whole with its length (00_scope.md R13; 42_fwd_transform.md R170). -/
def holdBlock (b : Size) (blk : List Byte) (s : State) : State := { s with st := blk, slen := b.toReg }

/-- `ENC` and `DEC` (42_fwd_transform.md R177, 43_inv_transform.md R204): size check, key check, then the
schedule, the result and the response. -/
def cipherCommand (f : Size → Size → List Byte → List Byte → List Byte) (b : Nat) (din : BitVec 256)
    (s : State) : Result :=
  match Size.ofNat? b with
  | none => raiseError (.blockSize b) s
  | some bs =>
    withKey s fun k key =>
      let out := f bs k key (busTake din bs.bytes)
      respondOk out (holdBlock bs out (holdSchedule bs k key s))

/-! ### The host's side (30_encoding.md R80; 70_reset_and_hazards.md R300, R301) -/

/-- Take the host's next event, in the order the host issued them (20_memory.md R62). -/
def fetch (s : State) : Option (HostEvent × State) :=
  match s.inbox with
  | [] => none
  | e :: rest => some (e, { s with inbox := rest })

/-- Reset: the registers take the state of 70_reset_and_hazards.md R300. A command being executed produces no
response and leaves nothing behind (R301); what the host has already seen or has yet to issue is the host's. -/
def resetRegs (s : State) : State := { s with toRegs := Regs.reset }

end Sys2Proof.Machine
end

