-- ==== Sys2Proof/Machine/Forward.lean ====
section
/-! DEFINITION. Data movement and the forward transform: LDST, RDST, ADDRK, SUBB, SHROW, MIXC, ENC
(42_fwd_transform.md). -/

namespace Sys2Proof.Machine

/-- `LDST b, block`: load the working block (42_fwd_transform.md R170). -/
def execLdst (b : Nat) (din : BitVec 256) (s : State) : Result :=
  match Size.ofNat? b with
  | none => raiseError (.blockSize b) s
  | some bs => respondOk [] (holdBlock bs (busTake din bs.bytes) s)

/-- `RDST`: return the working block (42_fwd_transform.md R171). -/
def execRdst (s : State) : Result := withBlock s fun blk => respondOk blk s

/-- `ADDRK r`: AddRoundKey with round key `r` of the held schedule, which must be for the block's length
(42_fwd_transform.md R172). -/
def execAddrk (r : Nat) (s : State) : Result :=
  if s.slen = 0#8 ∨ s.ksb = 0#8 ∨ s.slen ≠ s.ksb then raiseError .seq s
  else withRoundKey r s fun rk => transformBlock (fun blk => xorBytes blk rk) s

/-- `SUBB`: SubBytes (42_fwd_transform.md R173). -/
def execSubb (s : State) : Result := transformBlock subBytes s

/-- `SHROW`: ShiftRows, the table chosen by `SLEN` (42_fwd_transform.md R174). -/
def execShrow (s : State) : Result := transformSized shiftRows s

/-- `MIXC`: MixColumns (42_fwd_transform.md R175). -/
def execMixc (s : State) : Result := transformBlock mixColumns s

/-- `ENC b, block`: encrypt one block under the loaded key (42_fwd_transform.md R177). -/
def execEnc (b : Nat) (din : BitVec 256) (s : State) : Result := cipherCommand encrypt b din s

end Sys2Proof.Machine
end

