-- ==== Sys2Proof/Machine/Inverse.lean ====
section
/-! DEFINITION. The inverse transform: ISUBB, ISHROW, IMIXC, DEC (43_inv_transform.md). -/

namespace Sys2Proof.Machine

/-- `ISUBB`: inverse SubBytes (43_inv_transform.md R200). -/
def execIsubb (s : State) : Result := transformBlock invSubBytes s

/-- `ISHROW`: inverse ShiftRows, the table chosen by `SLEN` (43_inv_transform.md R201). -/
def execIshrow (s : State) : Result := transformSized invShiftRows s

/-- `IMIXC`: inverse MixColumns (43_inv_transform.md R202). -/
def execImixc (s : State) : Result := transformBlock invMixColumns s

/-- `DEC b, block`: decrypt one block under the loaded key (43_inv_transform.md R204). -/
def execDec (b : Nat) (din : BitVec 256) (s : State) : Result := cipherCommand decrypt b din s

end Sys2Proof.Machine
end

