-- ==== Sys2Proof/Machine/KeySchedule.lean ====
section
/-! DEFINITION. Key holding and key-schedule commands: LDKEY, EXPAND, RDRK, STAT (41_key_schedule.md). -/

namespace Sys2Proof.Machine

/-- `LDKEY k, key`: load the cipher key and drop any schedule (41_key_schedule.md R140). -/
def execLdkey (k : Nat) (din : BitVec 256) (s : State) : Result :=
  match Size.ofNat? k with
  | none => raiseError (.keySize k) s
  | some n => respondOk [] { s with key := busTake din n.bytes, klen := n.toReg, ks := [], ksb := 0#8 }

/-- `EXPAND b`: derive and hold the schedule (41_key_schedule.md R142). -/
def execExpand (b : Nat) (s : State) : Result :=
  match Size.ofNat? b with
  | none => raiseError (.blockSize b) s
  | some bs => withKey s fun k key => respondOk [] (holdSchedule bs k key s)

/-- `RDRK r`: return a round key of the held schedule (41_key_schedule.md R143). -/
def execRdrk (r : Nat) (s : State) : Result :=
  if s.ksb = 0#8 then raiseError .seq s
  else withRoundKey r s fun rk => respondOk rk s

/-- `STAT`: return `[KLEN, KSB, SLEN, nr]`, `nr` the round count of the held schedule or 0
(41_key_schedule.md R144). -/
def execStat (s : State) : Result :=
  if s.ksb = 0#8 then respondOk [s.klen, s.ksb, s.slen, 0#8] s
  else match roundCount? s.ksb s.klen with
    | none => .fault (.illegalLength s.ksb)
    | some nr => respondOk [s.klen, s.ksb, s.slen, BitVec.ofNat 8 nr] s

end Sys2Proof.Machine
end

