-- ==== Sys2Proof/Machine/Dispatch.lean ====
section
/-! DEFINITION. One arm per command (30_encoding.md R83). -/

namespace Sys2Proof.Machine

def exec (i : Instr) (s : State) : Host.Outcome State Fault Refusal :=
  match i with
  | .ldkey k din => Sys2Proof.Machine.execLdkey k din s
  | .expand b => Sys2Proof.Machine.execExpand b s
  | .rdrk r => Sys2Proof.Machine.execRdrk r s
  | .stat => Sys2Proof.Machine.execStat s
  | .ldst b din => Sys2Proof.Machine.execLdst b din s
  | .rdst => Sys2Proof.Machine.execRdst s
  | .addrk r => Sys2Proof.Machine.execAddrk r s
  | .subb => Sys2Proof.Machine.execSubb s
  | .shrow => Sys2Proof.Machine.execShrow s
  | .mixc => Sys2Proof.Machine.execMixc s
  | .enc b din => Sys2Proof.Machine.execEnc b din s
  | .isubb => Sys2Proof.Machine.execIsubb s
  | .ishrow => Sys2Proof.Machine.execIshrow s
  | .imixc => Sys2Proof.Machine.execImixc s
  | .dec b din => Sys2Proof.Machine.execDec b din s

end Sys2Proof.Machine
end

