-- ==== Sys2Proof/Machine/Step.lean ====
section
/-! DEFINITION. One step: the host's next event takes effect, whole (00_scope.md R8; 20_memory.md R59, R62). -/

namespace Sys2Proof.Machine

/-- A command: decode it, then execute it or answer `ERR_ILLEGAL` with the word
(30_encoding.md R84, R88). -/
def stepCommand (c : Command) (s : State) : Host.Outcome State Fault Refusal :=
  match decode c with
  | .ok i => exec i s
  | .error _ => raiseError (.illegal c.cw) s

/-- One step. With no event the block waits and nothing changes (70_reset_and_hazards.md R312, log 7). -/
def step (s : State) : Host.Outcome State Fault Refusal :=
  match fetch s with
  | none => .next s
  | some (.command c, t) => stepCommand c t
  | some (.reset _, t) => .next (resetRegs t)

/-- `s` with the command of bits `w` (Decode.lean, `commandOfBits`) presented as the host's next event, so that
the next step takes exactly it; the events already queued follow it (logs 1, 11). -/
def State.withFetchWord (s : State) (nbits w : Nat) : State :=
  { s with inbox := .command (commandOfBits nbits w) :: s.inbox }

end Sys2Proof.Machine
end

