-- ==== Sys2Proof/Safety.lean ====
section
/-! DEFINITION. The invariants of the state, and the words claims are stated in: a run of a list of commands,
and the command sequences that Encrypt and Decrypt are made of. Spec: 10_state.md R22, R24, R26, R27;
60_exceptions.md R269; 42_fwd_transform.md R178; 43_inv_transform.md R206. -/

namespace Sys2Proof.Machine

/-! ### Invariants -/

/-- A length register holds 0 ("absent") or a valid length (10_state.md R22, R24, R26). -/
def legalLen (r : BitVec 8) : Bool := r == 0#8 || (Size.ofReg? r).isSome

/-- The invariants of 10_state.md R22, R24, R26 and R27: every length register is legal, `KEY` and `ST` have
the lengths their registers say, without a schedule `KS` is empty, and a held schedule is the expansion of the
held key for the block length in `KSB`. -/
structure Regs.Inv (s : Regs) : Prop where
  klenLegal : legalLen s.klen = true
  ksbLegal  : legalLen s.ksb = true
  slenLegal : legalLen s.slen = true
  keyLength : s.key.length = s.klen.toNat
  stLength  : s.st.length = s.slen.toNat
  noSchedule : s.ksb = 0#8 → s.ks = []
  schedule  : ∀ b, Size.ofReg? s.ksb = some b →
    ∃ k, Size.ofReg? s.klen = some k ∧ s.ks = expandKey b k s.key

/-! ### Responses -/

/-- The response of a success that returns `data` (30_encoding.md R87). -/
def okResponse (data : List Byte) : Response := ⟨0x00#8, 0#16, BitVec.ofNat 8 data.length, busOf data⟩

/-- The response of a failure: no data (30_encoding.md R87, 60_exceptions.md R268). -/
def errResponse (status : BitVec 8) (info : BitVec 16) : Response := ⟨status, info, 0#8, 0#256⟩

/-- The state with one more response produced and nothing else changed. -/
def State.answered (s : State) (r : Response) : State := { s with outbox := s.outbox ++ [r] }

/-- `i` completes at `s` as a transform: it answers `OK` without data, it replaces the working block by one of
the same length that satisfies `P`, and it changes nothing else (10_state.md R25, R32). -/
def TransformsBlock (i : Instr) (s : State) (P : List Byte → Prop) : Prop :=
  ∃ blk, exec i s = .next (State.answered { s with st := blk } (okResponse [])) ∧
    blk.length = s.st.length ∧ P blk

/-- "Every response has `STATUS = OK`" (60_exceptions.md R269). -/
def allOk (rs : List Response) : Bool := rs.all fun r => r.status == statusOk

/-! ### Runs of commands -/

/-- The host events of a list of commands. -/
def commandEvents (is : List Instr) : List HostEvent := is.map fun i => .command (encode i)

/-- The machine with a list of commands next in the host's list (00_scope.md R8). -/
def State.withCommands (s : State) (is : List Instr) : State :=
  { s with inbox := commandEvents is ++ s.inbox }

/-- The full rounds `1 .. n` of an encryption as commands (42_fwd_transform.md R178). -/
def encRoundCommands : Nat → List Instr
  | 0 => []
  | n + 1 => encRoundCommands n ++ [.subb, .shrow, .mixc, .addrk (n + 1)]

/-- The command sequence of `ENC b, P` for `nr` rounds (42_fwd_transform.md R178). -/
def encCommands (b nr : Nat) (p : BitVec 256) : List Instr :=
  [.expand b, .ldst b p, .addrk 0] ++ encRoundCommands (nr - 1) ++ [.subb, .shrow, .addrk nr, .rdst]

/-- The rounds `n` down to `1` of a decryption as commands (43_inv_transform.md R206). -/
def decRoundCommands : Nat → List Instr
  | 0 => []
  | n + 1 => [.addrk (n + 1), .imixc, .ishrow, .isubb] ++ decRoundCommands n

/-- The command sequence of `DEC b, C` for `nr` rounds (43_inv_transform.md R206). -/
def decCommands (b nr : Nat) (c : BitVec 256) : List Instr :=
  [.expand b, .ldst b c, .addrk nr, .ishrow, .isubb] ++ decRoundCommands (nr - 1) ++ [.addrk 0, .rdst]

end Sys2Proof.Machine
end

