-- ==== Sys2Proof/Certificates/Slice0/Obligations.lean ====
section
/-! DEFINITION. The statements for the provers, in the order of OBLIGATIONS.json. Each docstring names the
rules of the spec it rests on. A length written `b.bytes` or `k.bytes` with `b k : Size` ranges over exactly 16,
24 and 32. -/

open Sys2Proof Sys2Proof.Machine

/-! ### Encoding -/

/-- Decoding an encoded well-formed command gives it back, with every argument `0..255` and every data
operand (30_encoding.md R81, R83, R88). -/
def Obligations.DecodeOfEncodeIsIdentity : Prop :=
  ∀ i : Instr, i.wellFormed = true → decode (encode i) = .ok i

/-- A decoded command word has one meaning: the instruction is well formed and encoding it gives the word back
(30_encoding.md R82, R83). The clause on the data operand is the model's choice (DESIGN CHOICE, log 10): the
instructions `LDKEY`, `LDST`, `ENC`, `DEC` carry the operand whole, and the others, which ignore it (R82), drop
it, so that `encode` presents zero. -/
def Obligations.DecodedWordEncodesBack : Prop :=
  ∀ (c : Command) (i : Instr), decode c = .ok i →
    i.wellFormed = true ∧ (encode i).cw = c.cw ∧
    (encode i).din = if opField c.cw ∈ [0x10#8, 0x20#8, 0x2F#8, 0x3F#8] then c.din else 0#256

/-- 30_encoding.md R84: a word that matches no row is refused with `ERR_ILLEGAL(CW)` and no register changes;
a word that matches a row selects one command. -/
def Obligations.UnmatchedWordIsRefused : Prop :=
  ∀ (c : Command) (s : State) (rest : List HostEvent), s.inbox = .command c :: rest →
    ((∀ row ∈ opcodeTable, row.selectedBy c.cw = false) →
      step s = .next (State.answered { s with inbox := rest } (errResponse 0x05#8 c.cw))) ∧
    ((∃ row ∈ opcodeTable, row.selectedBy c.cw = true) → ∃ i, decode c = .ok i)

/-- 30_encoding.md R83, "No two rows overlap": a word selects at most one row. -/
def Obligations.OpcodeRowsDoNotOverlap : Prop :=
  ∀ (w : BitVec 16), ∀ p ∈ opcodeTable, ∀ q ∈ opcodeTable,
    p.selectedBy w = true → q.selectedBy w = true → p = q

/-- A few words written out from the table of 30_encoding.md R83 decode to the commands they stand for, and
words of 30_encoding.md R84 (a) and (b) to none. -/
def Obligations.WordsOfTheTableDecode : Prop :=
  ∀ d : BitVec 256,
    decode ⟨0b0001000000011000#16, d⟩ = .ok (.ldkey 24 d) ∧
    decode ⟨0b0001001000001010#16, d⟩ = .ok (.rdrk 10) ∧
    decode ⟨0b0010001000000001#16, d⟩ = .ok (.addrk 1) ∧
    decode ⟨0b0010111100100000#16, d⟩ = .ok (.enc 32 d) ∧
    decode ⟨0b0011010100000000#16, d⟩ = .ok .imixc ∧
    decode ⟨0b0011111111111111#16, d⟩ = .ok (.dec 255 d) ∧
    decode ⟨0b0011001000000000#16, d⟩ = .error (.unknownOp 0x32#8) ∧
    decode ⟨0b0010001110000000#16, d⟩ = .error (.nonzeroArg 0x23#8 0x80#8)

/-! ### The step -/

/-- When the host's next event is a command that decodes to `i`, the step takes the event and executes `i`
(00_scope.md R8, 30_encoding.md R88; the event list is the model's, log 1). -/
def Obligations.StepRunsTheDecodedCommand : Prop :=
  ∀ (s : State) (c : Command) (rest : List HostEvent) (i : Instr),
    s.inbox = .command c :: rest → decode c = .ok i → step s = exec i { s with inbox := rest }

/-- A reset, between commands or during one, leaves the reset registers and produces no response
(70_reset_and_hazards.md R300, R301; that resets are events of the list is the model's choice, log 9). With no
event nothing changes (the model's choice, log 7). -/
def Obligations.StepOfResetAndOfNoEvent : Prop :=
  ∀ s : State,
    (s.inbox = [] → step s = .next s) ∧
    (∀ a rest, s.inbox = .reset a :: rest → step s = .next
      { key := [], klen := 0#8, ks := [], ksb := 0#8, st := [], slen := 0#8,
        inbox := rest, outbox := s.outbox })

/-- 10_state.md R33, 70_reset_and_hazards.md R300: the reset values of the six registers. (The empty `inbox`
and `outbox` of `State.reset` are the model's choice, logs 1 and 2, and are not claimed here.) -/
def Obligations.ResetValuesOfTheRegisters : Prop :=
  State.reset.toRegs = { key := [], klen := 0#8, ks := [], ksb := 0#8, st := [], slen := 0#8 }

/-! ### The commands, one by one: result, frame, errors in the order of 60_exceptions.md R267 -/

/-- 41_key_schedule.md R140. -/
def Obligations.LdkeyLoadsKeyAndDropsSchedule : Prop :=
  ∀ (din : BitVec 256) (s : State),
    (∀ k : Size, exec (.ldkey k.bytes din) s = .next (State.answered
      { s with key := (List.range k.bytes).map (busByte din), klen := BitVec.ofNat 8 k.bytes,
               ks := [], ksb := 0#8 } (okResponse []))) ∧
    (∀ k : Nat, k ∉ [16, 24, 32] →
      exec (.ldkey k din) s = .next (s.answered (errResponse 0x01#8 (BitVec.ofNat 16 (8 * k)))))

/-- 41_key_schedule.md R142. -/
def Obligations.ExpandHoldsSchedule : Prop :=
  ∀ s : State,
    (s.Inv → ∀ b k : Size, s.klen = BitVec.ofNat 8 k.bytes →
      exec (.expand b.bytes) s = .next (State.answered
        { s with ks := expandKey b k s.key, ksb := BitVec.ofNat 8 b.bytes } (okResponse []))) ∧
    (∀ b : Nat, b ∉ [16, 24, 32] →
      exec (.expand b) s = .next (s.answered (errResponse 0x02#8 (BitVec.ofNat 16 (8 * b))))) ∧
    (∀ b : Size, s.klen = 0#8 → exec (.expand b.bytes) s = .next (s.answered (errResponse 0x03#8 0#16)))

/-- 41_key_schedule.md R143. -/
def Obligations.RdrkReturnsRoundKey : Prop :=
  ∀ (r : Nat) (s : State),
    (s.ksb = 0#8 → exec (.rdrk r) s = .next (s.answered (errResponse 0x03#8 0#16))) ∧
    (∀ b k : Size, s.ksb = BitVec.ofNat 8 b.bytes → s.klen = BitVec.ofNat 8 k.bytes →
      (roundCount b k < r →
        exec (.rdrk r) s = .next (s.answered (errResponse 0x04#8 (BitVec.ofNat 16 r)))) ∧
      (s.Inv → r ≤ roundCount b k → ∃ rk,
        exec (.rdrk r) s = .next (s.answered (okResponse rk)) ∧ rk.length = b.bytes ∧
        ∀ i < b.bytes, rk[i]? = s.ks[r * b.bytes + i]?))

/-- 41_key_schedule.md R144. -/
def Obligations.StatReturnsLengthsAndRoundCount : Prop :=
  ∀ s : State,
    (s.ksb = 0#8 → exec .stat s = .next (s.answered (okResponse [s.klen, s.ksb, s.slen, 0#8]))) ∧
    (∀ b k : Size, s.ksb = BitVec.ofNat 8 b.bytes → s.klen = BitVec.ofNat 8 k.bytes →
      exec .stat s = .next
        (s.answered (okResponse [s.klen, s.ksb, s.slen, BitVec.ofNat 8 (roundCount b k)])))

/-- 42_fwd_transform.md R170. -/
def Obligations.LdstLoadsBlock : Prop :=
  ∀ (din : BitVec 256) (s : State),
    (∀ b : Size, exec (.ldst b.bytes din) s = .next (State.answered
      { s with st := (List.range b.bytes).map (busByte din), slen := BitVec.ofNat 8 b.bytes }
      (okResponse []))) ∧
    (∀ b : Nat, b ∉ [16, 24, 32] →
      exec (.ldst b din) s = .next (s.answered (errResponse 0x02#8 (BitVec.ofNat 16 (8 * b)))))

/-- 42_fwd_transform.md R171. -/
def Obligations.RdstReturnsBlock : Prop :=
  ∀ s : State,
    (s.slen = 0#8 → exec .rdst s = .next (s.answered (errResponse 0x03#8 0#16))) ∧
    (s.Inv → s.slen ≠ 0#8 → exec .rdst s = .next (s.answered (okResponse s.st)))

/-- 42_fwd_transform.md R172. -/
def Obligations.AddrkXorsRoundKey : Prop :=
  ∀ (r : Nat) (s : State),
    (s.slen = 0#8 ∨ s.ksb = 0#8 ∨ s.slen ≠ s.ksb →
      exec (.addrk r) s = .next (s.answered (errResponse 0x03#8 0#16))) ∧
    (∀ b k : Size, s.slen = BitVec.ofNat 8 b.bytes → s.ksb = BitVec.ofNat 8 b.bytes →
      s.klen = BitVec.ofNat 8 k.bytes →
      (roundCount b k < r →
        exec (.addrk r) s = .next (s.answered (errResponse 0x04#8 (BitVec.ofNat 16 r)))) ∧
      (s.Inv → r ≤ roundCount b k → TransformsBlock (.addrk r) s fun blk =>
        ∀ i < b.bytes, byteAt blk i = byteAt s.st i ^^^ byteAt s.ks (r * b.bytes + i)))

/-- 42_fwd_transform.md R173. -/
def Obligations.SubbSubstitutesEveryByte : Prop :=
  ∀ s : State,
    (s.slen = 0#8 → exec .subb s = .next (s.answered (errResponse 0x03#8 0#16))) ∧
    (s.Inv → s.slen ≠ 0#8 → TransformsBlock .subb s fun blk =>
      ∀ i < s.slen.toNat, byteAt blk i = sbox (byteAt s.st i))

/-- 42_fwd_transform.md R174: the pseudocode, and the row rotation it is equivalent to. -/
def Obligations.ShrowRotatesRowsLeft : Prop :=
  ∀ s : State,
    (s.slen = 0#8 → exec .shrow s = .next (s.answered (errResponse 0x03#8 0#16))) ∧
    (s.Inv → ∀ b : Size, s.slen = BitVec.ofNat 8 b.bytes → TransformsBlock .shrow s fun blk =>
      (∀ i < b.bytes, byteAt blk i = byteAt s.st ((rowShift b).getD i 0)) ∧
      ∀ (r : Fin 4) (c : Nat), c < b.columns →
        byteAt blk (r.val + 4 * c) = byteAt s.st (r.val + 4 * ((c + rowOffset b r) % b.columns)))

/-- 42_fwd_transform.md R175. -/
def Obligations.MixcMixesEveryColumn : Prop :=
  ∀ s : State,
    (s.slen = 0#8 → exec .mixc s = .next (s.answered (errResponse 0x03#8 0#16))) ∧
    (s.Inv → s.slen ≠ 0#8 → TransformsBlock .mixc s fun blk =>
      ∀ c < s.slen.toNat / 4,
        let a0 := byteAt s.st (4 * c)
        let a1 := byteAt s.st (4 * c + 1)
        let a2 := byteAt s.st (4 * c + 2)
        let a3 := byteAt s.st (4 * c + 3)
        byteAt blk (4 * c) = mul2 a0 ^^^ mul3 a1 ^^^ a2 ^^^ a3 ∧
        byteAt blk (4 * c + 1) = a0 ^^^ mul2 a1 ^^^ mul3 a2 ^^^ a3 ∧
        byteAt blk (4 * c + 2) = a0 ^^^ a1 ^^^ mul2 a2 ^^^ mul3 a3 ∧
        byteAt blk (4 * c + 3) = mul3 a0 ^^^ a1 ^^^ a2 ^^^ mul2 a3)

/-- 42_fwd_transform.md R177. -/
def Obligations.EncEncryptsUnderHeldKey : Prop :=
  ∀ (p : BitVec 256) (s : State),
    (s.Inv → ∀ b k : Size, s.klen = BitVec.ofNat 8 k.bytes →
      let c := encrypt b k s.key ((List.range b.bytes).map (busByte p))
      c.length = b.bytes ∧
      exec (.enc b.bytes p) s = .next (State.answered
        { s with ks := expandKey b k s.key, ksb := BitVec.ofNat 8 b.bytes,
                 st := c, slen := BitVec.ofNat 8 b.bytes } (okResponse c))) ∧
    (∀ b : Nat, b ∉ [16, 24, 32] →
      exec (.enc b p) s = .next (s.answered (errResponse 0x02#8 (BitVec.ofNat 16 (8 * b))))) ∧
    (∀ b : Size, s.klen = 0#8 → exec (.enc b.bytes p) s = .next (s.answered (errResponse 0x03#8 0#16)))

/-- 43_inv_transform.md R200. -/
def Obligations.IsubbSubstitutesBack : Prop :=
  ∀ s : State,
    (s.slen = 0#8 → exec .isubb s = .next (s.answered (errResponse 0x03#8 0#16))) ∧
    (s.Inv → s.slen ≠ 0#8 → TransformsBlock .isubb s fun blk =>
      ∀ i < s.slen.toNat, byteAt blk i = invSbox (byteAt s.st i))

/-- 43_inv_transform.md R201: the pseudocode, the row rotation and the scatter form it is equivalent to. -/
def Obligations.IshrowRotatesRowsRight : Prop :=
  ∀ s : State,
    (s.slen = 0#8 → exec .ishrow s = .next (s.answered (errResponse 0x03#8 0#16))) ∧
    (s.Inv → ∀ b : Size, s.slen = BitVec.ofNat 8 b.bytes → TransformsBlock .ishrow s fun blk =>
      (∀ i < b.bytes, byteAt blk i = byteAt s.st ((invRowShift b).getD i 0)) ∧
      (∀ (r : Fin 4) (c : Nat), c < b.columns → byteAt blk (r.val + 4 * c) =
        byteAt s.st (r.val + 4 * ((c + b.columns - rowOffset b r) % b.columns))) ∧
      ∀ i < b.bytes, byteAt blk ((rowShift b).getD i 0) = byteAt s.st i)

/-- 43_inv_transform.md R202. -/
def Obligations.ImixcMixesEveryColumnBack : Prop :=
  ∀ s : State,
    (s.slen = 0#8 → exec .imixc s = .next (s.answered (errResponse 0x03#8 0#16))) ∧
    (s.Inv → s.slen ≠ 0#8 → TransformsBlock .imixc s fun blk =>
      ∀ c < s.slen.toNat / 4,
        let a0 := byteAt s.st (4 * c)
        let a1 := byteAt s.st (4 * c + 1)
        let a2 := byteAt s.st (4 * c + 2)
        let a3 := byteAt s.st (4 * c + 3)
        byteAt blk (4 * c) = mul14 a0 ^^^ mul11 a1 ^^^ mul13 a2 ^^^ mul9 a3 ∧
        byteAt blk (4 * c + 1) = mul9 a0 ^^^ mul14 a1 ^^^ mul11 a2 ^^^ mul13 a3 ∧
        byteAt blk (4 * c + 2) = mul13 a0 ^^^ mul9 a1 ^^^ mul14 a2 ^^^ mul11 a3 ∧
        byteAt blk (4 * c + 3) = mul11 a0 ^^^ mul13 a1 ^^^ mul9 a2 ^^^ mul14 a3)

/-- 43_inv_transform.md R204. -/
def Obligations.DecDecryptsUnderHeldKey : Prop :=
  ∀ (c : BitVec 256) (s : State),
    (s.Inv → ∀ b k : Size, s.klen = BitVec.ofNat 8 k.bytes →
      let p := decrypt b k s.key ((List.range b.bytes).map (busByte c))
      p.length = b.bytes ∧
      exec (.dec b.bytes c) s = .next (State.answered
        { s with ks := expandKey b k s.key, ksb := BitVec.ofNat 8 b.bytes,
                 st := p, slen := BitVec.ofNat 8 b.bytes } (okResponse p))) ∧
    (∀ b : Nat, b ∉ [16, 24, 32] →
      exec (.dec b c) s = .next (s.answered (errResponse 0x02#8 (BitVec.ofNat 16 (8 * b))))) ∧
    (∀ b : Size, s.klen = 0#8 → exec (.dec b.bytes c) s = .next (s.answered (errResponse 0x03#8 0#16)))

/-! ### Key expansion, Encrypt and Decrypt as the spec writes them -/

/-- 41_key_schedule.md R141: the length, the key prefix, and every generated word; at byte index `i` the
round-constant index is `i/k - 1`, the number of segments begun before. -/
def Obligations.ExpandKeyWordByWord : Prop :=
  ∀ (b k : Size) (key : List Byte), key.length = k.bytes →
    let w := expandKey b k key
    w.length = (roundCount b k + 1) * b.bytes ∧
    w.take k.bytes = key ∧
    ∀ i, k.bytes ≤ i → i < w.length → i % 4 = 0 →
      let t := wordAt w (i - 4)
      let t' : Word :=
        if i % k.bytes = 0 then
          ⟨sbox t.b1 ^^^ rcon (i / k.bytes - 1), sbox t.b2, sbox t.b3, sbox t.b0⟩
        else if k.bytes = 32 ∧ i % k.bytes = 16 then ⟨sbox t.b0, sbox t.b1, sbox t.b2, sbox t.b3⟩
        else t
      wordAt w i = (wordAt w (i - k.bytes)).xor t'

/-- 41_key_schedule.md R145, last sentences (marked derived there): of two schedules of one key the shorter is
a prefix of the longer. -/
def Obligations.ShorterScheduleIsPrefixOfLonger : Prop :=
  ∀ (b1 b2 k : Size) (key : List Byte), key.length = k.bytes →
    scheduleBytes b1 k ≤ scheduleBytes b2 k →
    (expandKey b2 k key).take (scheduleBytes b1 k) = expandKey b1 k key

/-- 41_key_schedule.md R146 (marked derived there): the number of round constants used, per pair, for every
key; the highest index is one less, so never above 28. -/
def Obligations.RoundConstantsUsedPerPair : Prop :=
  ∀ key : List Byte,
    rconUsed .b16 .b16 key = 10 ∧ rconUsed .b16 .b24 key = 8 ∧ rconUsed .b16 .b32 key = 7 ∧
    rconUsed .b24 .b16 key = 19 ∧ rconUsed .b24 .b24 key = 12 ∧ rconUsed .b24 .b32 key = 11 ∧
    rconUsed .b32 .b16 key = 29 ∧ rconUsed .b32 .b24 key = 19 ∧ rconUsed .b32 .b32 key = 14 ∧
    ∀ b k : Size, rconUsed b k key ≤ Config.rconEntries

/-- 42_fwd_transform.md R176: whatever sequence `S` of intermediate blocks starts with round key 0 and follows
the full rounds `1..nr-1`, Encrypt is the final round of its last member; the result has the length of the
block. -/
def Obligations.EncryptRoundByRound : Prop :=
  ∀ (b k : Size) (key p : List Byte) (S : Nat → List Byte),
    let nr := roundCount b k
    let w := expandKey b k key
    S 0 = addRoundKey b w 0 p →
    (∀ r, 1 ≤ r → r ≤ nr - 1 →
      S r = addRoundKey b w r (mixColumns (shiftRows b (subBytes (S (r - 1)))))) →
    encrypt b k key p = addRoundKey b w nr (shiftRows b (subBytes (S (nr - 1)))) ∧
    (key.length = k.bytes → p.length = b.bytes → (encrypt b k key p).length = p.length)

/-- 43_inv_transform.md R203: whatever sequence `S` of intermediate blocks starts with the first round and
follows the rounds `nr-1` down to `1`, Decrypt is round key 0 added to its last member. `S r` is the block
before round `r` of the loop, and `S 0` the block after round 1. -/
def Obligations.DecryptRoundByRound : Prop :=
  ∀ (b k : Size) (key c : List Byte) (S : Nat → List Byte),
    let nr := roundCount b k
    let w := expandKey b k key
    S (nr - 1) = invSubBytes (invShiftRows b (addRoundKey b w nr c)) →
    (∀ r, 1 ≤ r → r ≤ nr - 1 →
      S (r - 1) = invSubBytes (invShiftRows b (invMixColumns (addRoundKey b w r (S r))))) →
    decrypt b k key c = addRoundKey b w 0 (S 0)

/-! ### Constant tables -/

/-- 40_tables.md R112: the laws of `gf_mul`, and the rule's own examples. -/
def Obligations.GfMulIsAFieldProduct : Prop :=
  (∀ a b : Byte, gfMul a b = gfMul b a) ∧
  (∀ a b c : Byte, gfMul (gfMul a b) c = gfMul a (gfMul b c)) ∧
  (∀ a b c : Byte, gfMul a (b ^^^ c) = gfMul a b ^^^ gfMul a c) ∧
  (∀ a : Byte, gfMul a 1#8 = a ∧ gfMul a 0#8 = 0#8) ∧
  gfMul 0x57#8 0x02#8 = 0xAE#8 ∧ gfMul 0x57#8 0x13#8 = 0xFE#8 ∧
  gfMul 0x80#8 0x02#8 = 0x1B#8 ∧ gfMul 0x53#8 0xCA#8 = 0x01#8

/-- 40_tables.md R113: each multiplication table holds the products by its constant, is a bijection, and maps
zero to zero. -/
def Obligations.MultiplicationTablesHoldProducts : Prop :=
  (∀ x : Byte, mul2 x = gfMul x 2#8 ∧ mul3 x = gfMul x 3#8 ∧ mul9 x = gfMul x 9#8 ∧
    mul11 x = gfMul x 11#8 ∧ mul13 x = gfMul x 13#8 ∧ mul14 x = gfMul x 14#8) ∧
  ∀ f ∈ [mul2, mul3, mul9, mul11, mul13, mul14], Function.Bijective f ∧ f 0#8 = 0#8

/-- 40_tables.md R114, R115 (the formula is marked general knowledge there; PRESUMED, log 8): `SBOX` is the affine map of the
multiplicative inverse, with the inverse of 0 taken as 0; it is a bijection without fixed or opposite fixed
points. -/
def Obligations.SboxIsAffineOfInverse : Prop :=
  (∀ x y : Byte, gfMul x y = 1#8 → sbox x = affine y) ∧ sbox 0#8 = affine 0#8 ∧
  (∀ x : Byte, x ≠ 0#8 → ∃ y, gfMul x y = 1#8) ∧
  Function.Bijective sbox ∧ ∀ x : Byte, sbox x ≠ x ∧ sbox x ≠ x ^^^ 0xFF#8

/-- 40_tables.md R117 (the contents are general knowledge, 93_implementation_defined.md G1; PRESUMED, log 8):
`INV_SBOX` is the functional inverse of `SBOX`, and so the one index that a search of the forward table finds. -/
def Obligations.InvSboxInvertsSbox : Prop :=
  (∀ x : Byte, invSbox (sbox x) = x) ∧ (∀ y : Byte, sbox (invSbox y) = y) ∧
  ∀ x y : Byte, sbox x = y ↔ x = invSbox y

/-- 40_tables.md R118 (values marked general knowledge there; PRESUMED, log 8): the 29 printed round constants. -/
def Obligations.RoundConstantValues : Prop :=
  (List.range Config.rconEntries).map rcon =
    [0x01#8, 0x02#8, 0x04#8, 0x08#8, 0x10#8, 0x20#8, 0x40#8, 0x80#8, 0x1B#8, 0x36#8, 0x6C#8, 0xD8#8,
     0xAB#8, 0x4D#8, 0x9A#8, 0x2F#8, 0x5E#8, 0xBC#8, 0x63#8, 0xC6#8, 0x97#8, 0x35#8, 0x6A#8, 0xD4#8,
     0xB3#8, 0x7D#8, 0xFA#8, 0xEF#8, 0xC5#8]

/-- 40_tables.md R119 to R121 (layout and row order marked general knowledge there; PRESUMED, log 8): the
printed permutations are the row rotations, and the inverse table undoes the forward one at every index. -/
def Obligations.RowShiftTablesFollowOffsets : Prop :=
  ∀ (b : Size) (r : Fin 4) (c : Nat), c < b.columns →
    (rowShift b).length = b.bytes ∧ (invRowShift b).length = b.bytes ∧
    (rowShift b)[r.val + 4 * c]? = some (r.val + 4 * ((c + rowOffset b r) % b.columns)) ∧
    (invRowShift b)[r.val + 4 * c]? =
      some (r.val + 4 * ((c + b.columns - rowOffset b r) % b.columns)) ∧
    (invRowShift b)[(rowShift b).getD (r.val + 4 * c) 0]? = some (r.val + 4 * c)

/-- 40_tables.md R122: output byte `i` of a column is row `i` of the matrix times the column over GF(2^8), and
the two matrices are inverse to each other. -/
def Obligations.MixColumnIsMatrixProduct : Prop :=
  (∀ a : Word, (mixColumn a).toList = mixMatrix.map fun row => gfDot row a.toList) ∧
  (∀ a : Word, (invMixColumn a).toList = invMixMatrix.map fun row => gfDot row a.toList) ∧
  (∀ a : Word, invMixColumn (mixColumn a) = a ∧ mixColumn (invMixColumn a) = a)

/-- 40_tables.md R123: `NR` has a value for exactly the 9 pairs of valid lengths. That it is 10, 12, 14 for a
larger length of 16, 24, 32 is the spec's own reading, so marked there (92_eei_decisions.md D14; PRESUMED in
log 8), and the schedule lengths follow from it. -/
def Obligations.RoundCountByLargerLength : Prop :=
  (∀ b k : Size, let m := max b.bytes k.bytes
    roundCount b k = (if m = 16 then 10 else if m = 24 then 12 else 14) ∧
    roundCount b k = m / 4 + 6 ∧
    roundCount? (BitVec.ofNat 8 b.bytes) (BitVec.ofNat 8 k.bytes) = some (roundCount b k)) ∧
  (∀ b k : BitVec 8, b.toNat ∉ [16, 24, 32] ∨ k.toNat ∉ [16, 24, 32] → roundCount? b k = none) ∧
  scheduleBytes .b16 .b16 = 176 ∧ scheduleBytes .b16 .b24 = 208 ∧ scheduleBytes .b16 .b32 = 240 ∧
  scheduleBytes .b24 .b16 = 312 ∧ scheduleBytes .b24 .b24 = 312 ∧ scheduleBytes .b24 .b32 = 360 ∧
  scheduleBytes .b32 .b16 = 480 ∧ scheduleBytes .b32 .b24 = 480 ∧ scheduleBytes .b32 .b32 = 480

/-! ### Laws between commands -/

/-- 43_inv_transform.md R205, component laws: each transform followed by its inverse, in either order, restores
all six registers. -/
def Obligations.InverseTransformRestoresBlock : Prop :=
  ∀ s : State, s.Inv → s.slen ≠ 0#8 →
    ∀ p ∈ [(Instr.subb, Instr.isubb), (.isubb, .subb), (.shrow, .ishrow), (.ishrow, .shrow),
           (.mixc, .imixc), (.imixc, .mixc)],
      ∃ t u, exec p.1 s = .next t ∧ exec p.2 t = .next u ∧ u.toRegs = s.toRegs

/-- 42_fwd_transform.md R172 and 43_inv_transform.md R205 (marked derived in R172): `ADDRK` is its own
inverse. -/
def Obligations.AddrkTwiceRestoresBlock : Prop :=
  ∀ (s : State) (b k : Size) (r : Nat), s.Inv → s.slen = BitVec.ofNat 8 b.bytes →
    s.ksb = BitVec.ofNat 8 b.bytes → s.klen = BitVec.ofNat 8 k.bytes → r ≤ roundCount b k →
    ∃ t u, exec (.addrk r) s = .next t ∧ exec (.addrk r) t = .next u ∧ u.toRegs = s.toRegs

/-- 43_inv_transform.md R205 (marked derived there): SubBytes commutes with ShiftRows, and so do their
inverses. -/
def Obligations.SubstitutionCommutesWithRowShift : Prop :=
  ∀ s : State, s.Inv → s.slen ≠ 0#8 →
    ∀ p ∈ [(Instr.subb, Instr.shrow), (.isubb, .ishrow)],
      ∃ t t' u u', exec p.1 s = .next t ∧ exec p.2 t = .next u ∧
        exec p.2 s = .next t' ∧ exec p.1 t' = .next u' ∧ u.toRegs = u'.toRegs

/-- 43_inv_transform.md R205 (the second order marked derived there): for all nine pairs and every block, `DEC`
of the data `ENC` returned gives the block back, and `ENC` of the data `DEC` returned does too. -/
def Obligations.DecryptionInvertsEncryption : Prop :=
  ∀ (s : State) (b k : Size) (x : BitVec 256), s.Inv → s.klen = BitVec.ofNat 8 k.bytes →
    ∀ p ∈ [(Instr.enc, Instr.dec), (Instr.dec, Instr.enc)],
      ∃ t u y, exec (p.1 b.bytes x) s = .next t ∧ t.outbox = s.outbox ++ [y] ∧ y.status = 0x00#8 ∧
        exec (p.2 b.bytes y.dout) t = .next u ∧
        u.st = (List.range b.bytes).map (busByte x) ∧
        u.outbox = t.outbox ++ [okResponse ((List.range b.bytes).map (busByte x))]

/-- 42_fwd_transform.md R178 (marked derived there): with a key held, the `4*nr + 3` commands of the sequence,
run by the machine, all answer `OK`, leave the registers that `ENC` leaves, and end with `ENC`'s response. -/
def Obligations.EncEqualsItsCommandSequence : Prop :=
  ∀ (s : State) (b k : Size) (p : BitVec 256), s.Inv → s.klen = BitVec.ofNat 8 k.bytes →
    let nr := roundCount b k
    ∃ t u rs y, exec (.enc b.bytes p) s = .next t ∧ t.outbox = s.outbox ++ [y] ∧
      Sys2Proof.core.run (4 * nr + 3) (s.withCommands (encCommands b.bytes nr p)) = .next u ∧
      u.toRegs = t.toRegs ∧ u.inbox = s.inbox ∧
      u.outbox = s.outbox ++ rs ++ [y] ∧ rs.length = 4 * nr + 2 ∧ allOk (rs ++ [y]) = true

/-- 43_inv_transform.md R206 (marked derived there): the same for `DEC` and its `4*nr + 3` commands. -/
def Obligations.DecEqualsItsCommandSequence : Prop :=
  ∀ (s : State) (b k : Size) (c : BitVec 256), s.Inv → s.klen = BitVec.ofNat 8 k.bytes →
    let nr := roundCount b k
    ∃ t u rs y, exec (.dec b.bytes c) s = .next t ∧ t.outbox = s.outbox ++ [y] ∧
      Sys2Proof.core.run (4 * nr + 3) (s.withCommands (decCommands b.bytes nr c)) = .next u ∧
      u.toRegs = t.toRegs ∧ u.inbox = s.inbox ∧
      u.outbox = s.outbox ++ rs ++ [y] ∧ rs.length = 4 * nr + 2 ∧ allOk (rs ++ [y]) = true

/-- 70_reset_and_hazards.md R307: a successful `LDKEY` leaves no schedule and keeps the block; without a
schedule `RDRK` and `ADDRK` are refused; and only `EXPAND`, `ENC` and `DEC` end that. -/
def Obligations.LdkeyDropsScheduleUntilExpansion : Prop :=
  (∀ (k : Size) (din : BitVec 256) (s : State), ∃ t, exec (.ldkey k.bytes din) s = .next t ∧
    t.ksb = 0#8 ∧ t.ks = [] ∧ t.st = s.st ∧ t.slen = s.slen) ∧
  (∀ (r : Nat) (s : State), s.ksb = 0#8 →
    exec (.rdrk r) s = .next (s.answered (errResponse 0x03#8 0#16)) ∧
    exec (.addrk r) s = .next (s.answered (errResponse 0x03#8 0#16))) ∧
  (∀ (i : Instr) (s t : State), s.ksb = 0#8 → exec i s = .next t → t.ksb ≠ 0#8 →
    ∃ b din, i = .expand b ∨ i = .enc b din ∨ i = .dec b din)

/-- 41_key_schedule.md R142 and 10_state.md R31 (marked derived there): expanding again for the block length
held recomputes the same registers. -/
def Obligations.ReexpansionChangesNoRegister : Prop :=
  ∀ (s : State) (b : Size), s.Inv → s.ksb = BitVec.ofNat 8 b.bytes →
    ∃ t, exec (.expand b.bytes) s = .next t ∧ t.toRegs = s.toRegs

/-! ### Rules of the whole machine -/

/-- The invariants of 10_state.md R22, R24, R26, R27 hold after reset. -/
def Obligations.InvariantsHoldAtReset : Prop := State.reset.Inv

/-- 10_state.md R24, R27 (marked derived there): every step keeps the invariants, from every state that
satisfies them. That a step may also be a reset or, with no event, nothing is the model's choice (DESIGN CHOICE,
logs 9 and 7). -/
def Obligations.EveryStepKeepsInvariants : Prop :=
  ∀ s t : State, s.Inv → step s = .next t → t.Inv

/-- 10_state.md R20, R27: what the invariants say of the lengths and the contents of the arrays. -/
def Obligations.InvariantsBoundTheArrays : Prop :=
  ∀ s : State, s.Inv →
    s.key.length ≤ Config.keyCapacity ∧ s.ks.length ≤ Config.ksCapacity ∧
    s.st.length ≤ Config.stCapacity ∧
    ∀ b : Size, s.ksb = BitVec.ofNat 8 b.bytes →
      ∃ k : Size, s.klen = BitVec.ofNat 8 k.bytes ∧
        s.ks.length = (roundCount b k + 1) * b.bytes ∧ s.ks.take k.bytes = s.key

/-- 30_encoding.md R80 and 70_reset_and_hazards.md R312: from every state that satisfies the invariants a step
on a command answers a next state with exactly one response. The rest is the model's choice: that a step takes
the first event of a list (DESIGN CHOICE, log 1), that a reset is such an event, answered by nothing (DESIGN
CHOICE, log 9), and that a step without an event changes nothing and answers nothing (DESIGN CHOICE, log 7). -/
def Obligations.EveryEventIsAnswered : Prop :=
  ∀ s : State, s.Inv → ∃ t, step s = .next t ∧ t.inbox = s.inbox.tail ∧
    match s.inbox with
    | .command _ :: _ => ∃ r, t.outbox = s.outbox ++ [r]
    | _ => t.outbox = s.outbox

/-- 70_reset_and_hazards.md R312: no run stops, and every state it reaches satisfies the invariants. R312 ends a
run with the host's list; that a step beyond the end of the list answers the same state is the model's choice
(DESIGN CHOICE, unsafe, log 7), and so is a reset as an event of the list (DESIGN CHOICE, log 9). -/
def Obligations.NoRunEverStops : Prop :=
  ∀ (n : Nat) (s : State), s.Inv → ∃ t, Sys2Proof.core.run n s = .next t ∧ t.Inv

/-- 60_exceptions.md R268: a command that answers a non-zero `STATUS` leaves every register as it was, and
its response carries no data. -/
def Obligations.FailingCommandWritesNoRegister : Prop :=
  ∀ (s t : State) (c : Command) (rest : List HostEvent) (r : Response),
    s.inbox = .command c :: rest → step s = .next t → t.outbox = s.outbox ++ [r] → r.status ≠ 0x00#8 →
    t.toRegs = s.toRegs ∧ t.inbox = rest ∧ r.len = 0#8 ∧ r.dout = 0#256 ∧ r.status.toNat ≤ 5 ∧
    r.info = (if r.status = 0x01#8 ∨ r.status = 0x02#8 then BitVec.ofNat 16 (8 * (argField c.cw).toNat)
              else if r.status = 0x03#8 then 0#16
              else if r.status = 0x04#8 then (argField c.cw).setWidth 16
              else c.cw)

/-- 60_exceptions.md R261: the codes, who raises each, and `INFO`. -/
def Obligations.StatusCodesAndWhoRaisesThem : Prop :=
  ∀ (s t : State) (c : Command) (rest : List HostEvent) (r : Response),
    s.inbox = .command c :: rest → step s = .next t → t.outbox = s.outbox ++ [r] →
    let op := opField c.cw
    let arg := (argField c.cw).toNat
    (r.status = 0x00#8 ∧ r.info = 0#16) ∨
    (r.status = 0x01#8 ∧ op = 0x10#8 ∧ r.info.toNat = 8 * arg) ∨
    (r.status = 0x02#8 ∧ op ∈ [0x11#8, 0x20#8, 0x2F#8, 0x3F#8] ∧ r.info.toNat = 8 * arg) ∨
    (r.status = 0x03#8 ∧ op ∈ [0x11#8, 0x12#8, 0x21#8, 0x22#8, 0x23#8, 0x24#8, 0x25#8, 0x33#8, 0x34#8,
      0x35#8, 0x2F#8, 0x3F#8] ∧ r.info = 0#16) ∨
    (r.status = 0x04#8 ∧ op ∈ [0x12#8, 0x22#8] ∧ r.info.toNat = arg) ∨
    (r.status = 0x05#8 ∧ (∀ row ∈ opcodeTable, row.selectedBy c.cw = false) ∧ r.info = c.cw)

/-- 30_encoding.md R87 with the data column of R83: on success `LEN` is the number of bytes the command
returns, on error 0; `DOUT` is zero at and above `LEN`. -/
def Obligations.ResponseLengthAndPadding : Prop :=
  ∀ (s t : State) (c : Command) (rest : List HostEvent) (r : Response),
    s.Inv → s.inbox = .command c :: rest → step s = .next t → t.outbox = s.outbox ++ [r] →
    let op := opField c.cw
    r.len = (if r.status ≠ 0x00#8 then 0#8
             else if op = 0x12#8 then s.ksb
             else if op = 0x13#8 then 4#8
             else if op = 0x21#8 then s.slen
             else if op = 0x2F#8 ∨ op = 0x3F#8 then argField c.cw
             else 0#8) ∧
    ∀ i < Config.busBytes, r.len.toNat ≤ i → busByte r.dout i = 0#8

/-- 20_memory.md R55: byte `i` of a sequence travels in byte `i` of the bus and the bytes above are zero; `DIN`
bytes at or above the length argument are ignored. -/
def Obligations.BusLanesAndIgnoredBytes : Prop :=
  (∀ (l : List Byte) (i : Nat), l.length ≤ Config.busBytes → i < Config.busBytes →
    busByte (busOf l) i = (l[i]?).getD 0#8) ∧
  (∀ (n : Nat) (d e : BitVec 256) (s : State), (∀ i < n, busByte d i = busByte e i) →
    exec (.ldkey n d) s = exec (.ldkey n e) s ∧ exec (.ldst n d) s = exec (.ldst n e) s ∧
    exec (.enc n d) s = exec (.enc n e) s ∧ exec (.dec n d) s = exec (.dec n e) s)

/-- 10_state.md R32, the write columns (marked derived there): which command can change which register. -/
def Obligations.OnlyListedCommandsWriteARegister : Prop :=
  ∀ (i : Instr) (s t : State), exec i s = .next t →
    ((t.key ≠ s.key ∨ t.klen ≠ s.klen) → ∃ k d, i = .ldkey k d) ∧
    ((t.ks ≠ s.ks ∨ t.ksb ≠ s.ksb) → ∃ n d, i ∈ [.ldkey n d, .expand n, .enc n d, .dec n d]) ∧
    (t.st ≠ s.st → ∃ n d, i ∈ [.ldst n d, .addrk n, .subb, .shrow, .mixc, .isubb, .ishrow, .imixc,
      .enc n d, .dec n d]) ∧
    (t.slen ≠ s.slen → ∃ n d, i ∈ [.ldst n d, .enc n d, .dec n d])

/-- 20_memory.md R59 (marked derived there): `RDRK`, `RDST` and `STAT` change no register, and repeating one
returns the same response. -/
def Obligations.ReadingCommandsAreIdempotent : Prop :=
  ∀ (s t : State) (r : Nat), ∀ i ∈ [Instr.rdrk r, .rdst, .stat], exec i s = .next t →
    t.toRegs = s.toRegs ∧ ∃ u y, exec i t = .next u ∧ u.toRegs = s.toRegs ∧
      t.outbox = s.outbox ++ [y] ∧ u.outbox = t.outbox ++ [y]

/-- 00_scope.md R9: the next registers and the response are functions of the registers and the command alone;
neither what the host queued nor what it has already seen matters. -/
def Obligations.ResponseDependsOnRegistersOnly : Prop :=
  ∀ (i : Instr) (s s' t : State), s.toRegs = s'.toRegs → exec i s = .next t →
    ∃ t' r, exec i s' = .next t' ∧ t'.toRegs = t.toRegs ∧
      t.outbox = s.outbox ++ [r] ∧ t'.outbox = s'.outbox ++ [r] ∧
      t.inbox = s.inbox ∧ t'.inbox = s'.inbox
end

