-- ==== Sys2Proof/Laws/Decode.lean ====
section
/-! SUPPORT. Lemmas of the command word's fields and of the bus. -/

namespace Sys2Proof

@[simp] theorem opField_packWord (op arg : BitVec 8) : opField (packWord op arg) = op := by
  apply BitVec.eq_of_getLsbD_eq
  intro i hi
  simp [opField, packWord, hi, show 8 + i < 16 by omega]

@[simp] theorem argField_packWord (op arg : BitVec 8) : argField (packWord op arg) = arg := by
  apply BitVec.eq_of_getLsbD_eq
  intro i hi
  simp [argField, packWord, hi, show i < 16 by omega]

/-- A command word is its two fields. -/
theorem packWord_fields (w : BitVec 16) : packWord (opField w) (argField w) = w := by
  apply BitVec.eq_of_getLsbD_eq
  intro i hi
  by_cases h : i < 8
  · simp [opField, argField, packWord, h, hi]
  · simp [opField, argField, packWord, h, hi, show i - 8 < 8 by omega, show 8 + (i - 8) = i by omega]

@[simp] theorem busTake_length (d : BitVec 256) (n : Nat) : (busTake d n).length = n := by simp [busTake]

/-- What a bus carries depends on its first `n` bytes alone. -/
theorem busTake_congr {d e : BitVec 256} {n : Nat} (h : ∀ i < n, busByte d i = busByte e i) :
    busTake d n = busTake e n :=
  List.map_congr_left fun i hi => h i (List.mem_range.mp hi)

@[simp] theorem requireZeroArg_zero (op : BitVec 8) (i : Instr) : requireZeroArg op 0#8 i = .ok i := rfl

/-- A must-be-zero argument is accepted exactly when it is zero. -/
theorem requireZeroArg_eq_ok {op arg : BitVec 8} {i j : Instr} :
    requireZeroArg op arg i = .ok j ↔ arg = 0#8 ∧ i = j := by
  unfold requireZeroArg; split <;> simp [*]

end Sys2Proof
end

