-- ==== Sys2Proof/Laws/Rijndael.lean ====
section
/-! SUPPORT. Lengths: every pure function of the cipher answers a sequence of the length its rule gives, so
that the reads of `byteAt` and `wordAt` stay in range (log 12). -/

namespace Sys2Proof.Machine

/-! ### Sizes -/

theorem size_ofNat?_bytes (b : Size) : Size.ofNat? b.bytes = some b := by cases b <;> rfl

theorem size_ofReg?_toReg (b : Size) : Size.ofReg? b.toReg = some b := by cases b <;> rfl

theorem size_toReg_toNat (b : Size) : b.toReg.toNat = b.bytes := by cases b <;> rfl

theorem size_toReg_ne_zero (b : Size) : b.toReg ≠ 0#8 := by cases b <;> decide

/-- A length is valid exactly when it is some size's number of bytes. -/
theorem size_ofNat?_eq_some {n : Nat} {b : Size} : Size.ofNat? n = some b ↔ n = b.bytes := by
  unfold Size.ofNat?
  cases b <;> simp only [Size.bytes] <;> split_ifs <;> simp_all

theorem size_ofNat?_eq_none {n : Nat} : Size.ofNat? n = none ↔ n ∉ [16, 24, 32] := by
  unfold Size.ofNat?
  split_ifs <;> simp_all

theorem size_ofReg?_eq_some {r : BitVec 8} {b : Size} : Size.ofReg? r = some b ↔ r = b.toReg := by
  rw [Size.ofReg?, size_ofNat?_eq_some]
  refine ⟨fun h => BitVec.eq_of_toNat_eq (by rw [h, size_toReg_toNat]), fun h => by rw [h, size_toReg_toNat]⟩

@[simp] theorem roundCount?_toReg (b k : Size) : roundCount? b.toReg k.toReg = some (roundCount b k) := by
  simp [roundCount?, size_ofReg?_toReg]

theorem roundCount?_eq_some {b k : BitVec 8} {nr : Nat} :
    roundCount? b k = some nr ↔ ∃ b' k' : Size, b = b'.toReg ∧ k = k'.toReg ∧ nr = roundCount b' k' := by
  constructor
  · intro h
    unfold roundCount? at h
    split at h
    · rename_i b' k' hb hk
      exact ⟨b', k', size_ofReg?_eq_some.mp hb, size_ofReg?_eq_some.mp hk, by simpa using h.symm⟩
    · cases h
  · rintro ⟨b', k', rfl, rfl, rfl⟩; simp

/-! ### Words and blocks -/

@[simp] theorem word_toList_length (w : Word) : w.toList.length = 4 := rfl

@[simp] theorem xorBytes_length (s t : List Byte) : (xorBytes s t).length = min s.length t.length := by
  simp [xorBytes]

@[simp] theorem subBytes_length (s : List Byte) : (subBytes s).length = s.length := by simp [subBytes]

@[simp] theorem invSubBytes_length (s : List Byte) : (invSubBytes s).length = s.length := by simp [invSubBytes]

@[simp] theorem gather_length (t : List Nat) (s : List Byte) : (gather t s).length = t.length := by simp [gather]

@[simp] theorem rowShift_length (b : Size) : (rowShift b).length = b.bytes := by cases b <;> rfl

@[simp] theorem invRowShift_length (b : Size) : (invRowShift b).length = b.bytes := by cases b <;> rfl

/-- Every entry of a row-shift table is an index of the block: `gather` reads in range. -/
theorem rowShift_lt (b : Size) : ∀ j ∈ rowShift b, j < b.bytes := by cases b <;> decide

theorem invRowShift_lt (b : Size) : ∀ j ∈ invRowShift b, j < b.bytes := by cases b <;> decide

@[simp] theorem shiftRows_length (b : Size) (s : List Byte) : (shiftRows b s).length = b.bytes := by
  simp [shiftRows]

@[simp] theorem invShiftRows_length (b : Size) (s : List Byte) : (invShiftRows b s).length = b.bytes := by
  simp [invShiftRows]

@[simp] theorem mapColumns_length (f : Word → Word) (s : List Byte) : (mapColumns f s).length = s.length := by
  induction s using mapColumns.induct with
  | case1 a0 a1 a2 a3 rest ih => simp [mapColumns, ih]; omega
  | case2 rest h => simp [mapColumns]

@[simp] theorem mixColumns_length (s : List Byte) : (mixColumns s).length = s.length := mapColumns_length _ s

@[simp] theorem invMixColumns_length (s : List Byte) : (invMixColumns s).length = s.length :=
  mapColumns_length _ s

/-! ### Key expansion -/

/-- A loop of `n` steps adds `4 n` bytes. -/
theorem expandLoop_length (k : Size) (n i j : Nat) (w : List Byte) :
    (expandLoop k n i j w).1.length = w.length + 4 * n := by
  induction n generalizing i j w with
  | zero => simp [expandLoop]
  | succ n ih => simp only [expandLoop]; rw [ih]; simp; omega

/-- The loop only appends: what is there stays there. -/
theorem expandLoop_append (k : Size) (n i j : Nat) (w : List Byte) :
    ∃ new, (expandLoop k n i j w).1 = w ++ new := by
  induction n generalizing i j w with
  | zero => exact ⟨[], by simp [expandLoop]⟩
  | succ n ih =>
    simp only [expandLoop]
    obtain ⟨new, h⟩ := ih (i + 4) (if i % k.bytes = 0 then j + 1 else j)
      (w ++ ((wordAt w (i - k.bytes)).xor (expandTemp k i j (wordAt w (i - 4)))).toList)
    exact ⟨_, by rw [h, List.append_assoc]⟩

/-- The schedule is whole words, and longer than the key. -/
theorem scheduleBytes_split (b k : Size) :
    k.bytes + 4 * ((scheduleBytes b k - k.bytes) / 4) = scheduleBytes b k := by
  cases b <;> cases k <;> rfl

theorem expandKey_length (b k : Size) {key : List Byte} (h : key.length = k.bytes) :
    (expandKey b k key).length = scheduleBytes b k := by
  rw [expandKey, expandRun, expandLoop_length, h, scheduleBytes_split]

theorem expandKey_take_key (b k : Size) {key : List Byte} (h : key.length = k.bytes) :
    (expandKey b k key).take k.bytes = key := by
  obtain ⟨new, hnew⟩ := expandLoop_append k ((scheduleBytes b k - k.bytes) / 4) k.bytes 0 key
  rw [expandKey, expandRun, hnew, ← h, List.take_left']
  rfl

/-! ### Round keys, Encrypt, Decrypt -/

/-- A round key of a whole schedule has the block length. -/
theorem roundKey_length {b k : Size} {w : List Byte} (hw : w.length = scheduleBytes b k) {r : Nat}
    (hr : r ≤ roundCount b k) : (roundKey b w r).length = b.bytes := by
  have : (r + 1) * b.bytes ≤ (roundCount b k + 1) * b.bytes := Nat.mul_le_mul_right _ (by omega)
  simp only [roundKey, List.length_take, List.length_drop, hw, scheduleBytes]
  have : (r + 1) * b.bytes = r * b.bytes + b.bytes := by ring
  omega

theorem addRoundKey_length {b k : Size} {w s : List Byte} (hw : w.length = scheduleBytes b k) {r : Nat}
    (hr : r ≤ roundCount b k) (hs : s.length = b.bytes) : (addRoundKey b w r s).length = b.bytes := by
  simp [addRoundKey, hs, roundKey_length hw hr]

theorem encRound_length {b k : Size} {w : List Byte} (hw : w.length = scheduleBytes b k) {r : Nat}
    (hr : r ≤ roundCount b k) (s : List Byte) : (encRound b w r s).length = b.bytes :=
  addRoundKey_length hw hr (by simp)

theorem decRound_length (b : Size) (w : List Byte) (r : Nat) (s : List Byte) :
    (decRound b w r s).length = b.bytes := by simp [decRound]

theorem encrypt_length (b k : Size) {key : List Byte} (hk : key.length = k.bytes) (p : List Byte) :
    (encrypt b k key p).length = b.bytes :=
  addRoundKey_length (expandKey_length b k hk) le_rfl (by simp)

theorem decRounds_length {b : Size} {w s : List Byte} (n : Nat) (hs : s.length = b.bytes) :
    (decRounds b w n s).length = b.bytes := by
  induction n generalizing s with
  | zero => exact hs
  | succ n ih => exact ih (decRound_length b w (n + 1) s)

theorem decrypt_length (b k : Size) {key : List Byte} (hk : key.length = k.bytes) (c : List Byte) :
    (decrypt b k key c).length = b.bytes :=
  addRoundKey_length (expandKey_length b k hk) (Nat.zero_le _) (decRounds_length _ (by simp))

end Sys2Proof.Machine
end

