-- ==== Sys2Proof/Laws/State.lean ====
section
/-! SUPPORT. One lemma per field per update of the state, so that no later proof unfolds a record update. -/

namespace Sys2Proof.Machine

variable (s : State) (st : BitVec 8) (info : BitVec 16) (data blk key : List Byte) (b k : Size) (r : Response)

@[simp] theorem respond_toRegs : (respond st info data s).toRegs = s.toRegs := rfl
@[simp] theorem respond_inbox : (respond st info data s).inbox = s.inbox := rfl
@[simp] theorem respond_outbox : (respond st info data s).outbox =
    s.outbox ++ [⟨st, info, BitVec.ofNat 8 data.length, busOf data⟩] := rfl

@[simp] theorem answered_toRegs : (s.answered r).toRegs = s.toRegs := rfl
@[simp] theorem answered_inbox : (s.answered r).inbox = s.inbox := rfl
@[simp] theorem answered_outbox : (s.answered r).outbox = s.outbox ++ [r] := rfl

@[simp] theorem holdSchedule_key : (holdSchedule b k key s).key = s.key := rfl
@[simp] theorem holdSchedule_klen : (holdSchedule b k key s).klen = s.klen := rfl
@[simp] theorem holdSchedule_ks : (holdSchedule b k key s).ks = expandKey b k key := rfl
@[simp] theorem holdSchedule_ksb : (holdSchedule b k key s).ksb = b.toReg := rfl
@[simp] theorem holdSchedule_st : (holdSchedule b k key s).st = s.st := rfl
@[simp] theorem holdSchedule_slen : (holdSchedule b k key s).slen = s.slen := rfl
@[simp] theorem holdSchedule_inbox : (holdSchedule b k key s).inbox = s.inbox := rfl
@[simp] theorem holdSchedule_outbox : (holdSchedule b k key s).outbox = s.outbox := rfl

@[simp] theorem holdBlock_key : (holdBlock b blk s).key = s.key := rfl
@[simp] theorem holdBlock_klen : (holdBlock b blk s).klen = s.klen := rfl
@[simp] theorem holdBlock_ks : (holdBlock b blk s).ks = s.ks := rfl
@[simp] theorem holdBlock_ksb : (holdBlock b blk s).ksb = s.ksb := rfl
@[simp] theorem holdBlock_st : (holdBlock b blk s).st = blk := rfl
@[simp] theorem holdBlock_slen : (holdBlock b blk s).slen = b.toReg := rfl
@[simp] theorem holdBlock_inbox : (holdBlock b blk s).inbox = s.inbox := rfl
@[simp] theorem holdBlock_outbox : (holdBlock b blk s).outbox = s.outbox := rfl

@[simp] theorem resetRegs_toRegs : (resetRegs s).toRegs = Regs.reset := rfl
@[simp] theorem resetRegs_inbox : (resetRegs s).inbox = s.inbox := rfl
@[simp] theorem resetRegs_outbox : (resetRegs s).outbox = s.outbox := rfl

@[simp] theorem withCommands_toRegs (is : List Instr) : (s.withCommands is).toRegs = s.toRegs := rfl
@[simp] theorem withCommands_inbox (is : List Instr) :
    (s.withCommands is).inbox = commandEvents is ++ s.inbox := rfl
@[simp] theorem withCommands_outbox (is : List Instr) : (s.withCommands is).outbox = s.outbox := rfl

/-- A success answers `okResponse`. -/
theorem respondOk_eq : respondOk data s = .next (s.answered (okResponse data)) := rfl

/-- A failure answers `errResponse`, with the registers as they were (60_exceptions.md R268). -/
theorem raiseError_eq (e : CommandError) : raiseError e s = .next (s.answered (errResponse e.status e.info)) :=
  rfl

end Sys2Proof.Machine
end

