-- ==== Sys2Proof/Laws/Ops.lean ====
section
/-! SUPPORT. For each shared operation, one lemma that says everything it can do (`…_cases`), and one that says
what it does in a state that satisfies the invariants (`…_of_inv`). Later proofs cite these and do not unfold
the operations. -/

namespace Sys2Proof.Machine

/-! ### Index spaces -/

theorem memRead_eq_some {sp : Space} {a n : Nat} {s : Regs} {v : List Byte} :
    memRead sp a n s = some v ↔ a + n ≤ (s.bytes sp).length ∧ v = ((s.bytes sp).drop a).take n := by
  unfold memRead; split <;> simp_all [eq_comm]

/-- What `memRead` answers has the length asked for. -/
theorem memRead_length {sp : Space} {a n : Nat} {s : Regs} {v : List Byte} (h : memRead sp a n s = some v) :
    v.length = n := by
  obtain ⟨h, rfl⟩ := memRead_eq_some.mp h
  simp; omega

/-- Reading a whole space answers the space. -/
theorem memRead_all {sp : Space} {n : Nat} {s : Regs} (h : (s.bytes sp).length = n) :
    memRead sp 0 n s = some (s.bytes sp) := by
  subst h; simp [memRead]

theorem splice_all {l v : List Byte} (h : v.length = l.length) : splice l 0 v = v := by
  simp [splice, h]

@[simp] theorem splice_length {l v : List Byte} {a : Nat} (h : a + v.length ≤ l.length) :
    (splice l a v).length = l.length := by
  simp [splice]; omega

theorem memWriteSt_eq_some {a : Nat} {v : List Byte} {s t : State} :
    memWriteSt a v s = some t ↔
      a + v.length ≤ s.st.length ∧ t = { s with st := splice s.st a v } := by
  unfold memWriteSt; split <;> simp_all [eq_comm]

/-! ### Everything an operation can do -/

theorem withKey_cases {s t : State} {go : Size → List Byte → Result} (h : withKey s go = .next t) :
    (s.klen = 0#8 ∧ t = s.answered (errResponse 0x03#8 0#16)) ∨
    ∃ k, s.klen = k.toReg ∧ ∃ key, memRead .key 0 k.bytes s.toRegs = some key ∧ go k key = .next t := by
  unfold withKey at h
  split at h
  · rename_i h0
    rw [raiseError_eq] at h
    cases h; exact .inl ⟨h0, rfl⟩
  · split at h
    · cases h
    · rename_i k hk
      split at h
      · cases h
      · rename_i key hkey
        exact .inr ⟨k, size_ofReg?_eq_some.mp hk, key, hkey, h⟩

theorem withBlock_cases {s t : State} {go : List Byte → Result} (h : withBlock s go = .next t) :
    (s.slen = 0#8 ∧ t = s.answered (errResponse 0x03#8 0#16)) ∨
    (s.slen ≠ 0#8 ∧ ∃ blk, memRead .st 0 s.slen.toNat s.toRegs = some blk ∧ go blk = .next t) := by
  unfold withBlock at h
  split at h
  · rename_i h0
    rw [raiseError_eq] at h
    cases h; exact .inl ⟨h0, rfl⟩
  · rename_i h0
    split at h
    · cases h
    · rename_i blk hb
      exact .inr ⟨h0, blk, hb, h⟩

theorem withRoundKey_cases {r : Nat} {s t : State} {go : List Byte → Result}
    (h : withRoundKey r s go = .next t) :
    ∃ b k : Size, s.ksb = b.toReg ∧ s.klen = k.toReg ∧
      ((roundCount b k < r ∧ t = s.answered (errResponse 0x04#8 (BitVec.ofNat 16 r))) ∨
       (r ≤ roundCount b k ∧ ∃ rk, memRead .ks (r * b.bytes) b.bytes s.toRegs = some rk ∧ go rk = .next t)) := by
  unfold withRoundKey at h
  split at h
  · cases h
  · rename_i nr hnr
    obtain ⟨b, k, hb, hk, rfl⟩ := roundCount?_eq_some.mp hnr
    refine ⟨b, k, hb, hk, ?_⟩
    rw [hb, size_toReg_toNat] at h
    split at h
    · rename_i hr
      rw [raiseError_eq] at h
      cases h; exact .inl ⟨hr, rfl⟩
    · rename_i hr
      split at h
      · cases h
      · rename_i rk hrk
        exact .inr ⟨by omega, rk, hrk, h⟩

theorem storeBlock_cases {blk : List Byte} {s t : State} (h : storeBlock blk s = .next t) :
    blk.length ≤ s.st.length ∧
      t = State.answered { s with st := splice s.st 0 blk } (okResponse []) := by
  unfold storeBlock at h
  split at h
  · cases h
  · rename_i u hu
    obtain ⟨hle, rfl⟩ := memWriteSt_eq_some.mp hu
    rw [respondOk_eq] at h
    cases h; exact ⟨by omega, rfl⟩

/-- A transform either is refused for want of a block, or replaces bytes of `ST` and nothing else. -/
theorem transformBlock_cases {f : List Byte → List Byte} {s t : State} (h : transformBlock f s = .next t) :
    (s.slen = 0#8 ∧ t = s.answered (errResponse 0x03#8 0#16)) ∨
    (s.slen ≠ 0#8 ∧ ∃ blk, memRead .st 0 s.slen.toNat s.toRegs = some blk ∧ (f blk).length ≤ s.st.length ∧
      t = State.answered { s with st := splice s.st 0 (f blk) } (okResponse [])) := by
  rcases withBlock_cases h with h | ⟨h0, blk, hb, hgo⟩
  · exact .inl h
  · exact .inr ⟨h0, blk, hb, storeBlock_cases hgo⟩

theorem transformSized_cases {f : Size → List Byte → List Byte} {s t : State}
    (h : transformSized f s = .next t) :
    (s.slen = 0#8 ∧ t = s.answered (errResponse 0x03#8 0#16)) ∨
    ∃ b, s.slen = b.toReg ∧ ∃ blk, memRead .st 0 s.slen.toNat s.toRegs = some blk ∧
      (f b blk).length ≤ s.st.length ∧
      t = State.answered { s with st := splice s.st 0 (f b blk) } (okResponse []) := by
  rcases withBlock_cases h with h | ⟨-, blk, hb, hgo⟩
  · exact .inl h
  · split at hgo
    · cases hgo
    · rename_i b hlen
      exact .inr ⟨b, size_ofReg?_eq_some.mp hlen, blk, hb, storeBlock_cases hgo⟩

theorem cipherCommand_cases {f : Size → Size → List Byte → List Byte → List Byte} {n : Nat} {din : BitVec 256}
    {s t : State} (h : cipherCommand f n din s = .next t) :
    (n ∉ [16, 24, 32] ∧ t = s.answered (errResponse 0x02#8 (BitVec.ofNat 16 (8 * n)))) ∨
    (∃ b : Size, n = b.bytes ∧ s.klen = 0#8 ∧ t = s.answered (errResponse 0x03#8 0#16)) ∨
    ∃ b k : Size, n = b.bytes ∧ s.klen = k.toReg ∧ ∃ key, memRead .key 0 k.bytes s.toRegs = some key ∧
      t = State.answered (holdBlock b (f b k key (busTake din b.bytes)) (holdSchedule b k key s))
        (okResponse (f b k key (busTake din b.bytes))) := by
  unfold cipherCommand at h
  split at h
  · rename_i hn
    rw [raiseError_eq] at h
    cases h; exact .inl ⟨size_ofNat?_eq_none.mp hn, rfl⟩
  · rename_i b hb
    have hb := size_ofNat?_eq_some.mp hb
    rcases withKey_cases h with ⟨h0, ht⟩ | ⟨k, hk, key, hkey, hgo⟩
    · exact .inr (.inl ⟨b, hb, h0, ht⟩)
    · rw [respondOk_eq] at hgo
      cases hgo; exact .inr (.inr ⟨b, k, hb, hk, key, hkey, rfl⟩)

/-! ### In a state that satisfies the invariants -/

/-- A legal length register holds 0 or a size. -/
theorem legalLen_iff {r : BitVec 8} : legalLen r = true ↔ r = 0#8 ∨ ∃ b : Size, r = b.toReg := by
  simp only [legalLen, Bool.or_eq_true, beq_iff_eq, Option.isSome_iff_exists, size_ofReg?_eq_some]

theorem withKey_none {s : State} (h : s.klen = 0#8) (go : Size → List Byte → Result) :
    withKey s go = .next (s.answered (errResponse 0x03#8 0#16)) := by
  simp [withKey, h]; rfl

theorem withKey_of_inv {s : State} (hi : s.Inv) {k : Size} (hk : s.klen = k.toReg)
    (go : Size → List Byte → Result) : withKey s go = go k s.key := by
  have hl : (s.toRegs.bytes .key).length = k.bytes := by
    have := hi.keyLength; rwa [hk, size_toReg_toNat] at this
  simp only [withKey, hk, size_toReg_ne_zero, if_false, size_ofReg?_toReg, memRead_all hl]
  rfl

theorem withBlock_none {s : State} (h : s.slen = 0#8) (go : List Byte → Result) :
    withBlock s go = .next (s.answered (errResponse 0x03#8 0#16)) := by
  simp [withBlock, h]; rfl

theorem withBlock_of_inv {s : State} (hi : s.Inv) (h : s.slen ≠ 0#8) (go : List Byte → Result) :
    withBlock s go = go s.st := by
  have hl : (s.toRegs.bytes .st).length = s.slen.toNat := hi.stLength
  simp only [withBlock, h, if_false, memRead_all hl]
  rfl

theorem withRoundKey_range {s : State} {b k : Size} (hb : s.ksb = b.toReg) (hk : s.klen = k.toReg) {r : Nat}
    (hr : roundCount b k < r) (go : List Byte → Result) :
    withRoundKey r s go = .next (s.answered (errResponse 0x04#8 (BitVec.ofNat 16 r))) := by
  simp only [withRoundKey, hb, hk, roundCount?_toReg, hr, if_true]
  rfl

/-- With a schedule held, the invariants say which. -/
theorem schedule_of_inv {s : State} (hi : s.Inv) {b k : Size} (hb : s.ksb = b.toReg) (hk : s.klen = k.toReg) :
    s.ks = expandKey b k s.key ∧ s.ks.length = scheduleBytes b k := by
  obtain ⟨k', hk', hks⟩ := hi.schedule b (by rw [hb, size_ofReg?_toReg])
  rw [hk, size_ofReg?_toReg, Option.some.injEq] at hk'
  subst hk'
  have hl := hi.keyLength
  rw [hk, size_toReg_toNat] at hl
  exact ⟨hks, by rw [hks, expandKey_length b k hl]⟩

theorem withRoundKey_of_inv {s : State} (hi : s.Inv) {b k : Size} (hb : s.ksb = b.toReg) (hk : s.klen = k.toReg)
    {r : Nat} (hr : r ≤ roundCount b k) (go : List Byte → Result) :
    withRoundKey r s go = go (roundKey b s.ks r) := by
  have hl := (schedule_of_inv hi hb hk).2
  have : (r + 1) * b.bytes ≤ (roundCount b k + 1) * b.bytes := Nat.mul_le_mul_right _ (by omega)
  have : (r + 1) * b.bytes = r * b.bytes + b.bytes := by ring
  have hm : memRead .ks (r * b.bytes) b.bytes s.toRegs = some (roundKey b s.ks r) :=
    memRead_eq_some.mpr ⟨by simp only [Regs.bytes, hl, scheduleBytes]; omega, rfl⟩
  simp only [withRoundKey, hb, hk, roundCount?_toReg, show ¬ roundCount b k < r by omega, if_false,
    size_toReg_toNat, hm]

theorem storeBlock_of_length {blk : List Byte} {s : State} (h : blk.length = s.st.length) :
    storeBlock blk s = .next (State.answered { s with st := blk } (okResponse [])) := by
  simp only [storeBlock, memWriteSt, h, Nat.zero_add, le_refl, if_true, splice_all h]
  rfl

theorem transformBlock_of_inv {f : List Byte → List Byte} {s : State} (hi : s.Inv) (h : s.slen ≠ 0#8)
    (hf : (f s.st).length = s.st.length) :
    transformBlock f s = .next (State.answered { s with st := f s.st } (okResponse [])) := by
  rw [transformBlock, withBlock_of_inv hi h, storeBlock_of_length hf]

theorem transformSized_of_inv {f : Size → List Byte → List Byte} {s : State} (hi : s.Inv) {b : Size}
    (h : s.slen = b.toReg) (hf : (f b s.st).length = b.bytes) :
    transformSized f s = .next (State.answered { s with st := f b s.st } (okResponse [])) := by
  have hl := hi.stLength
  rw [h, size_toReg_toNat] at hl
  have h0 : s.slen ≠ 0#8 := by rw [h]; exact size_toReg_ne_zero b
  have hs : Size.ofReg? s.slen = some b := size_ofReg?_eq_some.mpr h
  rw [transformSized, withBlock_of_inv hi h0]
  simp only [hs]
  rw [storeBlock_of_length (by rw [hf, hl])]

theorem cipherCommand_of_inv {f : Size → Size → List Byte → List Byte → List Byte} {s : State} (hi : s.Inv)
    {b k : Size} (hk : s.klen = k.toReg) (din : BitVec 256) :
    cipherCommand f b.bytes din s = .next (State.answered
      (holdBlock b (f b k s.key (busTake din b.bytes)) (holdSchedule b k s.key s))
      (okResponse (f b k s.key (busTake din b.bytes)))) := by
  simp only [cipherCommand, size_ofNat?_bytes, withKey_of_inv hi hk]
  rfl

end Sys2Proof.Machine
end

