-- ==== Sys2Proof/Laws/Exec.lean ====
section
/-! SUPPORT. Said once: everything a command and a step can do when they answer a next state. Claims about all
instructions are a case analysis of `ExecCase`, and none of them unfolds a meaning again. -/

namespace Sys2Proof.Machine

/-- The commands that can end with `ERR_SEQ` (60_exceptions.md R264). -/
def needsState : Instr → Bool
  | .ldkey _ _ => false
  | .expand _ => true
  | .rdrk _ => true
  | .stat => false
  | .ldst _ _ => false
  | .rdst => true
  | .addrk _ => true
  | .subb => true
  | .shrow => true
  | .mixc => true
  | .enc _ _ => true
  | .isubb => true
  | .ishrow => true
  | .imixc => true
  | .dec _ _ => true

/-- The transforms without argument. -/
def plainTransform : Instr → Bool
  | .ldkey _ _ => false
  | .expand _ => false
  | .rdrk _ => false
  | .stat => false
  | .ldst _ _ => false
  | .rdst => false
  | .addrk _ => false
  | .subb => true
  | .shrow => true
  | .mixc => true
  | .enc _ _ => false
  | .isubb => true
  | .ishrow => true
  | .imixc => true
  | .dec _ _ => false

/-- `i` can take `s` to the next state: an error, or the effect of one of the shapes of command. -/
inductive ExecCase (i : Instr) (s : State) : State → Prop
  | keySize (k : Nat) (d : BitVec 256) (hi : i = .ldkey k d) (hk : k ∉ [16, 24, 32]) :
      ExecCase i s (s.answered (errResponse 0x01#8 (BitVec.ofNat 16 (8 * k))))
  | blockSize (b : Nat) (d : BitVec 256)
      (hi : i = .expand b ∨ i = .ldst b d ∨ i = .enc b d ∨ i = .dec b d) (hb : b ∉ [16, 24, 32]) :
      ExecCase i s (s.answered (errResponse 0x02#8 (BitVec.ofNat 16 (8 * b))))
  | seq (hi : needsState i = true) : ExecCase i s (s.answered (errResponse 0x03#8 0#16))
  | range (r : Nat) (hi : i = .rdrk r ∨ i = .addrk r) :
      ExecCase i s (s.answered (errResponse 0x04#8 (BitVec.ofNat 16 r)))
  | loadKey (k : Size) (d : BitVec 256) (hi : i = .ldkey k.bytes d) :
      ExecCase i s (State.answered
        { s with key := busTake d k.bytes, klen := k.toReg, ks := [], ksb := 0#8 } (okResponse []))
  | loadBlock (b : Size) (d : BitVec 256) (hi : i = .ldst b.bytes d) :
      ExecCase i s (State.answered (holdBlock b (busTake d b.bytes) s) (okResponse []))
  | expand (b k : Size) (key : List Byte) (hi : i = .expand b.bytes) (hk : s.klen = k.toReg)
      (hm : memRead .key 0 k.bytes s.toRegs = some key) :
      ExecCase i s (State.answered (holdSchedule b k key s) (okResponse []))
  | cipher (b k : Size) (key : List Byte) (d : BitVec 256) (f : Size → Size → List Byte → List Byte → List Byte)
      (hi : (i = .enc b.bytes d ∧ f = encrypt) ∨ (i = .dec b.bytes d ∧ f = decrypt)) (hk : s.klen = k.toReg)
      (hm : memRead .key 0 k.bytes s.toRegs = some key) :
      ExecCase i s (State.answered
        (holdBlock b (f b k key (busTake d b.bytes)) (holdSchedule b k key s))
        (okResponse (f b k key (busTake d b.bytes))))
  | read (data : List Byte)
      (hi : (∃ r, i = .rdrk r ∧ data.length = s.ksb.toNat) ∨ (i = .stat ∧ data.length = 4) ∨
        (i = .rdst ∧ data.length = s.slen.toNat)) :
      ExecCase i s (s.answered (okResponse data))
  | transform (blk : List Byte) (hi : plainTransform i = true ∨ ∃ r, i = .addrk r)
      (hl : blk.length = s.st.length) :
      ExecCase i s (State.answered { s with st := blk } (okResponse []))

theorem transformBlock_case {i : Instr} {f : List Byte → List Byte} {s t : State}
    (hi : plainTransform i = true) (hn : needsState i = true) (h : transformBlock f s = .next t) :
    ExecCase i s t := by
  rcases transformBlock_cases h with ⟨-, rfl⟩ | ⟨-, blk, -, hl, rfl⟩
  · exact .seq hn
  · exact .transform _ (.inl hi) (splice_length (by omega))

theorem transformSized_case {i : Instr} {f : Size → List Byte → List Byte} {s t : State}
    (hi : plainTransform i = true) (hn : needsState i = true) (h : transformSized f s = .next t) :
    ExecCase i s t := by
  rcases transformSized_cases h with ⟨-, rfl⟩ | ⟨b, -, blk, -, hl, rfl⟩
  · exact .seq hn
  · exact .transform _ (.inl hi) (splice_length (by omega))

theorem execLdkey_case {k : Nat} {d : BitVec 256} {s t : State} (h : execLdkey k d s = .next t) :
    ExecCase (.ldkey k d) s t := by
  unfold execLdkey at h
  split at h
  · rename_i hk
    cases h; exact .keySize k d rfl (size_ofNat?_eq_none.mp hk)
  · rename_i n hn
    obtain rfl := size_ofNat?_eq_some.mp hn
    cases h; exact .loadKey n d rfl

theorem execLdst_case {b : Nat} {d : BitVec 256} {s t : State} (h : execLdst b d s = .next t) :
    ExecCase (.ldst b d) s t := by
  unfold execLdst at h
  split at h
  · rename_i hb
    cases h; exact .blockSize b d (by simp) (size_ofNat?_eq_none.mp hb)
  · rename_i n hn
    obtain rfl := size_ofNat?_eq_some.mp hn
    cases h; exact .loadBlock n d rfl

theorem execExpand_case {b : Nat} {s t : State} (h : execExpand b s = .next t) : ExecCase (.expand b) s t := by
  unfold execExpand at h
  split at h
  · rename_i hb
    cases h; exact .blockSize b 0 (by simp) (size_ofNat?_eq_none.mp hb)
  · rename_i n hn
    obtain rfl := size_ofNat?_eq_some.mp hn
    rcases withKey_cases h with ⟨-, rfl⟩ | ⟨k, hk, key, hm, hgo⟩
    · exact .seq rfl
    · cases hgo; exact .expand n k key rfl hk hm

theorem execRdrk_case {r : Nat} {s t : State} (h : execRdrk r s = .next t) : ExecCase (.rdrk r) s t := by
  unfold execRdrk at h
  split at h
  · cases h; exact .seq rfl
  · obtain ⟨b, k, hb, hk, ⟨hr, rfl⟩ | ⟨hr, rk, hm, hgo⟩⟩ := withRoundKey_cases h
    · exact .range r (.inl rfl)
    · cases hgo; exact .read _ (.inl ⟨r, rfl, by rw [memRead_length hm, hb, size_toReg_toNat]⟩)

theorem execAddrk_case {r : Nat} {s t : State} (h : execAddrk r s = .next t) : ExecCase (.addrk r) s t := by
  unfold execAddrk at h
  split at h
  · cases h; exact .seq rfl
  · obtain ⟨b, k, hb, hk, ⟨hr, rfl⟩ | ⟨hr, rk, hm, hgo⟩⟩ := withRoundKey_cases h
    · exact .range r (.inr rfl)
    · rcases transformBlock_cases hgo with ⟨-, rfl⟩ | ⟨-, blk, -, hl, rfl⟩
      · exact .seq rfl
      · exact .transform _ (.inr ⟨r, rfl⟩) (splice_length (by omega))

theorem execStat_case {s t : State} (h : execStat s = .next t) : ExecCase .stat s t := by
  unfold execStat at h
  split at h
  · cases h; exact .read _ (.inr (.inl ⟨rfl, rfl⟩))
  · split at h
    · cases h
    · cases h; exact .read _ (.inr (.inl ⟨rfl, rfl⟩))

theorem execRdst_case {s t : State} (h : execRdst s = .next t) : ExecCase .rdst s t := by
  rcases withBlock_cases h with ⟨-, rfl⟩ | ⟨-, blk, hb, hgo⟩
  · exact .seq rfl
  · cases hgo; exact .read _ (.inr (.inr ⟨rfl, memRead_length hb⟩))

theorem execEnc_case {b : Nat} {d : BitVec 256} {s t : State} (h : execEnc b d s = .next t) :
    ExecCase (.enc b d) s t := by
  rcases cipherCommand_cases h with ⟨hb, rfl⟩ | ⟨b, rfl, -, rfl⟩ | ⟨b, k, rfl, hk, key, hm, rfl⟩
  · exact .blockSize b d (by simp) hb
  · exact .seq rfl
  · exact .cipher b k key d _ (.inl ⟨rfl, rfl⟩) hk hm

theorem execDec_case {b : Nat} {d : BitVec 256} {s t : State} (h : execDec b d s = .next t) :
    ExecCase (.dec b d) s t := by
  rcases cipherCommand_cases h with ⟨hb, rfl⟩ | ⟨b, rfl, -, rfl⟩ | ⟨b, k, rfl, hk, key, hm, rfl⟩
  · exact .blockSize b d (by simp) hb
  · exact .seq rfl
  · exact .cipher b k key d _ (.inr ⟨rfl, rfl⟩) hk hm

/-- Everything a command can do. -/
theorem exec_cases {i : Instr} {s t : State} (h : exec i s = .next t) : ExecCase i s t := by
  cases i with
  | ldkey k d => exact execLdkey_case h
  | expand b => exact execExpand_case h
  | rdrk r => exact execRdrk_case h
  | stat => exact execStat_case h
  | ldst b d => exact execLdst_case h
  | rdst => exact execRdst_case h
  | addrk r => exact execAddrk_case h
  | subb => exact transformBlock_case rfl rfl h
  | shrow => exact transformSized_case rfl rfl h
  | mixc => exact transformBlock_case rfl rfl h
  | enc b d => exact execEnc_case h
  | isubb => exact transformBlock_case rfl rfl h
  | ishrow => exact transformSized_case rfl rfl h
  | imixc => exact transformBlock_case rfl rfl h
  | dec b d => exact execDec_case h

/-- Everything a step can do. -/
theorem step_cases {s t : State} (h : step s = .next t) :
    (s.inbox = [] ∧ t = s) ∨
    (∃ a rest, s.inbox = .reset a :: rest ∧ t = resetRegs { s with inbox := rest }) ∨
    ∃ c rest, s.inbox = .command c :: rest ∧
      ((∃ i, decode c = .ok i ∧ ExecCase i { s with inbox := rest } t) ∨
       ∃ e, decode c = .error e ∧
         t = State.answered { s with inbox := rest } (errResponse 0x05#8 c.cw)) := by
  unfold step fetch at h
  cases hb : s.inbox with
  | nil => rw [hb] at h; cases h; exact .inl ⟨rfl, rfl⟩
  | cons e rest =>
    rw [hb] at h
    cases e with
    | reset a => cases h; exact .inr (.inl ⟨a, rest, rfl, rfl⟩)
    | command c =>
      refine .inr (.inr ⟨c, rest, rfl, ?_⟩)
      simp only [stepCommand] at h
      cases hd : decode c with
      | ok i => rw [hd] at h; exact .inl ⟨i, rfl, exec_cases h⟩
      | error e => rw [hd] at h; cases h; exact .inr ⟨e, rfl, rfl⟩

end Sys2Proof.Machine
end

