-- ==== Sys2Proof/Laws/PerInstr.lean ====
section
/-! SUPPORT. A statement for every constructor of `Instr`: its command word has the two fields of
30_encoding.md R81, `OP` as in R83 and `ARG` the instruction's argument. -/

namespace Sys2Proof.Laws.OpField

/-- The fields of the instruction's command word (30_encoding.md R81, R83). -/
def Statement (i : Instr) : Prop :=
  opField (encode i).cw = opcode i ∧
  (i.wellFormed = true → (argField (encode i).cw).toNat = argOf i)

/-- What makes the fields right for every instruction alike: the argument fits. -/
theorem of_fits {i : Instr} (h : i.wellFormed = true → argOf i ≤ 255) : Statement i := by
  refine ⟨by simp [encode], fun hw => ?_⟩
  have := h hw
  simp only [encode, argField_packWord, BitVec.toNat_ofNat]
  omega

theorem ldkey (k : Nat) (d : BitVec 256) : Statement (.ldkey k d) := of_fits of_decide_eq_true
theorem expand (b : Nat) : Statement (.expand b) := of_fits of_decide_eq_true
theorem rdrk (r : Nat) : Statement (.rdrk r) := of_fits of_decide_eq_true
theorem stat : Statement .stat := of_fits fun _ => Nat.zero_le _
theorem ldst (b : Nat) (d : BitVec 256) : Statement (.ldst b d) := of_fits of_decide_eq_true
theorem rdst : Statement .rdst := of_fits fun _ => Nat.zero_le _
theorem addrk (r : Nat) : Statement (.addrk r) := of_fits of_decide_eq_true
theorem subb : Statement .subb := of_fits fun _ => Nat.zero_le _
theorem shrow : Statement .shrow := of_fits fun _ => Nat.zero_le _
theorem mixc : Statement .mixc := of_fits fun _ => Nat.zero_le _
theorem enc (b : Nat) (d : BitVec 256) : Statement (.enc b d) := of_fits of_decide_eq_true
theorem isubb : Statement .isubb := of_fits fun _ => Nat.zero_le _
theorem ishrow : Statement .ishrow := of_fits fun _ => Nat.zero_le _
theorem imixc : Statement .imixc := of_fits fun _ => Nat.zero_le _
theorem dec (b : Nat) (d : BitVec 256) : Statement (.dec b d) := of_fits of_decide_eq_true

end Sys2Proof.Laws.OpField
end

