-- ==== Sys2Proof/Tests/Slice0.lean ====
section
/-! SUPPORT. Tests of one step each. Expected values are the printed ones of 95_test_vectors.md (vector named in
each docstring) or words written out from 30_encoding.md R83. After them, for every obligation with
hypotheses, a witness that its hypotheses can be met together. -/

namespace Sys2Proof.Tests

open Sys2Proof.Machine

set_option Elab.async false

/-! ### Helpers -/

/-- The `n` bytes of a hexadecimal string as 95_test_vectors.md writes it: byte 0 first, two digits a byte. -/
def hex (n v : Nat) : List Byte := (List.range n).map fun i => BitVec.ofNat 8 (v >>> (8 * (n - 1 - i)))

/-- The same string as a data operand. -/
def hexDin (n v : Nat) : BitVec 256 := busOf (hex n v)

/-- A key is held and nothing else. -/
def keyOnly (k : Size) (key : List Byte) : State := { State.reset with key := key, klen := k.toReg }

/-- A block is held and nothing else. -/
def blockOnly (b : Size) (blk : List Byte) : State := { State.reset with st := blk, slen := b.toReg }

/-- A key, its schedule for block length `b`, and a block of that length are held. -/
def held (b k : Size) (key blk : List Byte) : State :=
  { key := key, klen := k.toReg, ks := expandKey b k key, ksb := b.toReg, st := blk, slen := b.toReg,
    inbox := [], outbox := [] }

/-- The working block after an outcome. -/
def blockAfter : Result → Option (List Byte)
  | .next t => some t.st
  | .fault _ => none
  | .refused _ => none

/-- Status, `INFO` and data of the last response after an outcome. -/
def reply : Result → Option (BitVec 8 × BitVec 16 × List Byte)
  | .next t => t.outbox.getLast?.map fun r => (r.status, r.info, busTake r.dout r.len.toNat)
  | .fault _ => none
  | .refused _ => none

/-- `KLEN`, `KSB`, `SLEN` after an outcome. -/
def lengthsAfter : Result → Option (List (BitVec 8))
  | .next t => some [t.klen, t.ksb, t.slen]
  | .fault _ => none
  | .refused _ => none

/-- The outcome is a next state that passes the check. -/
def nextWith (p : State → Bool) : Result → Bool
  | .next t => p t
  | .fault _ => false
  | .refused _ => false

theorem exists_next {p : State → Bool} {r : Result} (h : nextWith p r = true) : ∃ t, r = .next t ∧ p t = true := by
  cases r with
  | next t => exact ⟨t, rfl, h⟩
  | fault _ => cases h
  | refused _ => cases h

def key16 : List Byte := hex 16 0x2B7E151628AED2A6ABF7158809CF4F3C
def block16 : List Byte := hex 16 0x3243F6A8885A308D313198A2E0370734
def key32 : List Byte := hex 32 0x2B7E151628AED2A6ABF7158809CF4F3C762E7160F38B4DA56A784D9045190CFE
def count16 : List Byte := hex 16 0x000102030405060708090A0B0C0D0E0F
def count32 : List Byte := hex 32 0x000102030405060708090A0B0C0D0E0F101112131415161718191A1B1C1D1E1F

/-- V36: the state of the AES example. -/
def aes : State := held .b16 .b16 key16 block16

/-! ### Well-formedness: an argument of 9 bits has no encoding -/

theorem test_wf_ldkey : (Instr.ldkey 256 0).wellFormed = false := by decide
theorem test_wf_expand : (Instr.expand 256).wellFormed = false := by decide
theorem test_wf_rdrk : (Instr.rdrk 256).wellFormed = false := by decide
theorem test_wf_ldst : (Instr.ldst 256 0).wellFormed = false := by decide
theorem test_wf_addrk : (Instr.addrk 256).wellFormed = false := by decide
theorem test_wf_enc : (Instr.enc 256 0).wellFormed = false := by decide
theorem test_wf_dec : (Instr.dec 256 0).wellFormed = false := by decide
theorem test_wf_accepts_255 : (Instr.dec 255 0).wellFormed = true := by decide

/-! ### Decoding: words written out from 30_encoding.md R83, `OP` then `ARG`, bit 15 first -/

theorem test_decode_ldkey (d : BitVec 256) : decode ⟨0b00010000_00100000#16, d⟩ = .ok (.ldkey 32 d) := by
  simp [decode, opField, argField]
theorem test_decode_expand (d : BitVec 256) : decode ⟨0b00010001_00011000#16, d⟩ = .ok (.expand 24) := by
  simp [decode, opField, argField]
theorem test_decode_rdrk (d : BitVec 256) : decode ⟨0b00010010_00001110#16, d⟩ = .ok (.rdrk 14) := by
  simp [decode, opField, argField]
theorem test_decode_stat (d : BitVec 256) : decode ⟨0b00010011_00000000#16, d⟩ = .ok .stat := by
  simp [decode, opField, argField, requireZeroArg]
theorem test_decode_ldst (d : BitVec 256) : decode ⟨0b00100000_00010000#16, d⟩ = .ok (.ldst 16 d) := by
  simp [decode, opField, argField]
theorem test_decode_rdst (d : BitVec 256) : decode ⟨0b00100001_00000000#16, d⟩ = .ok .rdst := by
  simp [decode, opField, argField, requireZeroArg]
theorem test_decode_addrk (d : BitVec 256) : decode ⟨0b00100010_11111111#16, d⟩ = .ok (.addrk 255) := by
  simp [decode, opField, argField]
theorem test_decode_subb (d : BitVec 256) : decode ⟨0b00100011_00000000#16, d⟩ = .ok .subb := by
  simp [decode, opField, argField, requireZeroArg]
theorem test_decode_shrow (d : BitVec 256) : decode ⟨0b00100100_00000000#16, d⟩ = .ok .shrow := by
  simp [decode, opField, argField, requireZeroArg]
theorem test_decode_mixc (d : BitVec 256) : decode ⟨0b00100101_00000000#16, d⟩ = .ok .mixc := by
  simp [decode, opField, argField, requireZeroArg]
theorem test_decode_enc (d : BitVec 256) : decode ⟨0b00101111_00000001#16, d⟩ = .ok (.enc 1 d) := by
  simp [decode, opField, argField]
theorem test_decode_isubb (d : BitVec 256) : decode ⟨0b00110011_00000000#16, d⟩ = .ok .isubb := by
  simp [decode, opField, argField, requireZeroArg]
theorem test_decode_ishrow (d : BitVec 256) : decode ⟨0b00110100_00000000#16, d⟩ = .ok .ishrow := by
  simp [decode, opField, argField, requireZeroArg]
theorem test_decode_imixc (d : BitVec 256) : decode ⟨0b00110101_00000000#16, d⟩ = .ok .imixc := by
  simp [decode, opField, argField, requireZeroArg]
theorem test_decode_dec (d : BitVec 256) : decode ⟨0b00111111_10000000#16, d⟩ = .ok (.dec 128 d) := by
  simp [decode, opField, argField]

/-- R84 (a): an `OP` between two families. -/
theorem test_decode_unknown (d : BitVec 256) :
    decode ⟨0b00101110_00010000#16, d⟩ = .error (.unknownOp 0x2E#8) := by
  simp [decode, opField]

/-- R84 (b): V64's `.word 0x1301`. -/
theorem test_decode_reserved (d : BitVec 256) :
    decode ⟨0b00010011_00000001#16, d⟩ = .error (.nonzeroArg 0x13#8 0x01#8) := by
  simp [decode, opField, argField, requireZeroArg]

/-- R89 and V60: `LDKEY 1, 01` is the word `0x1001` with the byte in `DIN[0]`. -/
theorem test_assemble : assemble "LDKEY" 1 [0x01#8] = some ⟨0x1001#16, 1#256⟩ := by decide +kernel

/-- R89: a command without argument takes none, and no mnemonic is made up. -/
theorem test_assemble_refuses : assemble "STAT" 1 [] = none ∧ assemble "NOP" 0 [] = none := by decide +kernel

/-- The host's word, and the step that runs it first after reset: V60 `LDKEY 24` (log 11). -/
theorem test_table_word : decodeTableWord 16 0x1018 = some (.ldkey 24 0) ∧
    lengthsAfter (step (State.reset.withFetchWord 16 0x1018)) = some [24#8, 0#8, 0#8] := by decide +kernel

/-! ### One step of each command -/

/-- V60. -/
theorem test_ldkey_loads : lengthsAfter (exec (.ldkey 24 (hexDin 24
    0x8E73B0F7DA0E6452C810F32B809079E562F8EAD2522C6B7B)) aes) = some [24#8, 0#8, 16#8] := by decide +kernel

/-- V60: `LDKEY 255`, `INFO = 2040`. -/
theorem test_ldkey_refuses : reply (exec (.ldkey 255 0) aes) = some (0x01#8, 2040#16, []) := by decide +kernel

/-- V12: round key 3 of the 32-byte key, the first that uses the branch of 32-byte keys. -/
theorem test_rdrk : reply (exec (.rdrk 3) (held .b16 .b32
    (hex 32 0x603DEB1015CA71BE2B73AEF0857D77811F352C073B6108D72D9810A30914DFF4) block16)) =
    some (0x00#8, 0#16, hex 16 0xA8B09C1A93D194CDBE49846EB75D5B9A) := by decide +kernel

/-- V63: one index past the last round key. -/
theorem test_rdrk_range : reply (exec (.rdrk 11) aes) = some (0x04#8, 11#16, []) := by decide +kernel

/-- V62: `EXPAND 32` under a 16-byte key. -/
theorem test_expand : lengthsAfter (exec (.expand 32) (keyOnly .b16 key16)) =
    some [16#8, 32#8, 0#8] := by decide +kernel

/-- V62: with no key and a bad length the length is reported. -/
theorem test_expand_priority : reply (exec (.expand 17) State.reset) = some (0x02#8, 136#16, []) := by
  decide +kernel

/-- V61: `STAT` of a 16-byte key, schedule and block. -/
theorem test_stat : reply (exec .stat aes) = some (0x00#8, 0#16, hex 4 0x1010100A) := by decide +kernel

/-- V64: after reset. -/
theorem test_stat_reset : reply (exec .stat State.reset) = some (0x00#8, 0#16, hex 4 0) := by decide +kernel

/-- V65. -/
theorem test_ldst : blockAfter (exec (.ldst 32 (hexDin 32
    0x000102030405060708090A0B0C0D0E0F101112131415161718191A1B1C1D1E1F)) aes) = some count32 := by decide +kernel

/-- V65: `LDST 8`, `INFO = 64`. -/
theorem test_ldst_refuses : reply (exec (.ldst 8 0) aes) = some (0x02#8, 64#16, []) := by decide +kernel

/-- V65. -/
theorem test_rdst : reply (exec .rdst (blockOnly .b16 count16)) = some (0x00#8, 0#16, count16) := by
  decide +kernel

/-- V65: no block. -/
theorem test_rdst_refuses : reply (exec .rdst State.reset) = some (0x03#8, 0#16, []) := by decide +kernel

/-- V36: round key 10. -/
theorem test_addrk : blockAfter (exec (.addrk 10) aes) = some (hex 16 0xE2570F0041B41504D00E946A56540B92) := by
  decide +kernel

/-- V66: with `KSB = 24` and `SLEN = 16`, `ADDRK 255` reports the sequence, not the range. -/
theorem test_addrk_priority : reply (exec (.addrk 255) { held .b24 .b16 key16 block16 with slen := 16#8 }) =
    some (0x03#8, 0#16, []) := by decide +kernel

/-- V32. -/
theorem test_subb : blockAfter (exec .subb (blockOnly .b32 count32)) = some (hex 32
    0x637C777BF26B6FC53001672BFED7AB76CA82C97DFA5947F0ADD4A2AF9CA472C0) := by decide +kernel

/-- V34. -/
theorem test_shrow : blockAfter (exec .shrow (blockOnly .b32 count32)) = some (hex 32
    0x00050E1304091217080D161B0C111A1F10151E0314190207181D060B1C010A0F) := by decide +kernel

/-- V35. -/
theorem test_mixc : blockAfter (exec .mixc (blockOnly .b16 (hex 16 0xD4BF5D30E0B452AEB84111F11E2798E5))) =
    some (hex 16 0x046681E5E0CB199A48F8D37A2806264C) := by decide +kernel

/-- V29a: block 16, key 16. -/
theorem test_enc : reply (exec (.enc 16 (hexDin 16 0x3243F6A8885A308D313198A2E0370734)) (keyOnly .b16 key16)) =
    some (0x00#8, 0#16, hex 16 0x3925841D02DC09FBDC118597196A0B32) := by decide +kernel

/-- V73: a bad length is reported before the missing key. -/
theorem test_enc_priority : reply (exec (.enc 17 (hexDin 16 0x00112233445566778899AABBCCDDEEFF)) State.reset) =
    some (0x02#8, 136#16, []) := by decide +kernel

/-- V32. -/
theorem test_isubb : blockAfter (exec .isubb (blockOnly .b32 count32)) = some (hex 32
    0x52096AD53036A538BF40A39E81F3D7FB7CE339829B2FFF87348E4344C4DEE9CB) := by decide +kernel

/-- V34. -/
theorem test_ishrow : blockAfter (exec .ishrow (blockOnly .b32 count32)) = some (hex 32
    0x001D161304011A1708051E1B0C09021F100D060314110A0718150E0B1C19120F) := by decide +kernel

/-- V35. -/
theorem test_imixc : blockAfter (exec .imixc (blockOnly .b32 count32)) = some (hex 32
    0x0A0F080D0E0B0C0902070005060304011A1F181D1E1B1C191217101516131411) := by decide +kernel

/-- V29b read backwards: block 16, key 24. -/
theorem test_dec : reply (exec (.dec 16 (hexDin 16 0xF9FB29AEFC384A250340D833B87EBC00))
    (keyOnly .b24 (key32.take 24))) = some (0x00#8, 0#16, block16) := by decide +kernel

/-- V64: a reserved word is answered with itself. -/
theorem test_illegal : reply (step (State.reset.withFetchWord 16 0x1301)) = some (0x05#8, 0x1301#16, []) := by
  decide +kernel

/-- 70_reset_and_hazards.md R301: a reset during `LDKEY` leaves the reset registers. -/
theorem test_reset_event : lengthsAfter (step { aes with inbox := [.reset (some (encode (.ldkey 16 0)))] }) =
    some [0#8, 0#8, 0#8] := by decide +kernel

/-! ### The helper states satisfy the invariants -/

theorem reset_inv_of (s : State) (h : s.toRegs = Regs.reset) : s.Inv := by
  rw [h]
  exact ⟨rfl, rfl, rfl, rfl, rfl, fun _ => rfl, fun b hb => absurd (size_ofReg?_eq_some.mp hb).symm (size_toReg_ne_zero b)⟩

theorem keyOnly_inv {k : Size} {key : List Byte} (h : key.length = k.bytes) : (keyOnly k key).Inv :=
  ⟨legalLen_iff.mpr (.inr ⟨k, rfl⟩), rfl, rfl, h.trans (size_toReg_toNat k).symm, rfl, fun _ => rfl,
    fun b hb => absurd (size_ofReg?_eq_some.mp hb).symm (size_toReg_ne_zero b)⟩

theorem blockOnly_inv {b : Size} {blk : List Byte} (h : blk.length = b.bytes) : (blockOnly b blk).Inv :=
  ⟨rfl, rfl, legalLen_iff.mpr (.inr ⟨b, rfl⟩), rfl, h.trans (size_toReg_toNat b).symm, fun _ => rfl,
    fun b hb => absurd (size_ofReg?_eq_some.mp hb).symm (size_toReg_ne_zero b)⟩

theorem held_inv {b k : Size} {key blk : List Byte} (hk : key.length = k.bytes) (hb : blk.length = b.bytes) :
    (held b k key blk).Inv := by
  refine ⟨legalLen_iff.mpr (.inr ⟨k, rfl⟩), legalLen_iff.mpr (.inr ⟨b, rfl⟩), legalLen_iff.mpr (.inr ⟨b, rfl⟩),
    hk.trans (size_toReg_toNat k).symm, hb.trans (size_toReg_toNat b).symm,
    fun h => absurd h (size_toReg_ne_zero b), fun b' hb' => ⟨k, size_ofReg?_toReg k, ?_⟩⟩
  have : some b = some b' := (size_ofReg?_toReg b).symm.trans hb'
  cases this; rfl

theorem aes_inv : aes.Inv := held_inv rfl rfl

theorem aes_with_inbox_inv (ib : List HostEvent) : ({ aes with inbox := ib } : State).Inv := aes_inv

/-! ### Witnesses: the hypotheses of each obligation, clause by clause, met by a concrete state and operands -/

theorem witness_DecodeOfEncodeIsIdentity :
    (Instr.enc 255 0x11#256).wellFormed = true ∧ (Instr.addrk 0).wellFormed = true := by decide

/-- A command that carries its operand, and one that drops it. -/
theorem witness_DecodedWordEncodesBack :
    (decode ⟨0x2010#16, 7#256⟩ = .ok (.ldst 16 7#256) ∧
      opField 0x2010#16 ∈ [0x10#8, 0x20#8, 0x2F#8, 0x3F#8]) ∧
    (decode ⟨0x12FF#16, 7#256⟩ = .ok (.rdrk 255) ∧
      opField 0x12FF#16 ∉ [0x10#8, 0x20#8, 0x2F#8, 0x3F#8]) :=
  ⟨⟨rfl, by decide⟩, rfl, by decide⟩

theorem witness_UnmatchedWordIsRefused :
    (∀ row ∈ opcodeTable, row.selectedBy 0x32FF#16 = false) ∧
    (∀ row ∈ opcodeTable, row.selectedBy 0x33FF#16 = false) ∧
    (∃ row ∈ opcodeTable, row.selectedBy 0x3300#16 = true) ∧
    ({ aes with inbox := [.command ⟨0x32FF#16, 0⟩] } : State).inbox = .command ⟨0x32FF#16, 0⟩ :: [] := by
  exact ⟨by decide, by decide, by decide, rfl⟩

theorem witness_OpcodeRowsDoNotOverlap :
    ∃ p ∈ opcodeTable, ∃ q ∈ opcodeTable, p.selectedBy 0x3F20#16 = true ∧ q.selectedBy 0x3F20#16 = true := by
  decide

theorem witness_StepRunsTheDecodedCommand :
    (aes.withCommands [.rdrk 10]).inbox = .command (encode (.rdrk 10)) :: [] ∧
    decode (encode (.rdrk 10)) = .ok (.rdrk 10) := ⟨rfl, rfl⟩

theorem witness_StepOfResetAndOfNoEvent :
    aes.inbox = [] ∧ ({ aes with inbox := [.reset none] } : State).inbox = .reset none :: [] := ⟨rfl, rfl⟩

/-- The values next to the valid lengths, and the ends of the field. -/
theorem witness_invalid_lengths : ∀ n ∈ [0, 15, 17, 23, 25, 31, 33, 255], n ∉ [16, 24, 32] := by decide

theorem witness_LdkeyLoadsKeyAndDropsSchedule : (255 : Nat) ∉ [16, 24, 32] ∧ (0 : Nat) ∉ [16, 24, 32] := by decide

theorem witness_ExpandHoldsSchedule :
    (aes.Inv ∧ aes.klen = BitVec.ofNat 8 Size.b16.bytes) ∧ (17 : Nat) ∉ [16, 24, 32] ∧
    State.reset.klen = 0#8 := ⟨⟨aes_inv, rfl⟩, by decide, rfl⟩

theorem witness_RdrkReturnsRoundKey :
    State.reset.ksb = 0#8 ∧
    (aes.ksb = BitVec.ofNat 8 Size.b16.bytes ∧ aes.klen = BitVec.ofNat 8 Size.b16.bytes ∧
      roundCount .b16 .b16 < 11 ∧ aes.Inv ∧ 10 ≤ roundCount .b16 .b16) :=
  ⟨rfl, rfl, rfl, by decide, aes_inv, by decide⟩

theorem witness_StatReturnsLengthsAndRoundCount :
    State.reset.ksb = 0#8 ∧ aes.ksb = BitVec.ofNat 8 Size.b16.bytes ∧ aes.klen = BitVec.ofNat 8 Size.b16.bytes :=
  ⟨rfl, rfl, rfl⟩

theorem witness_LdstLoadsBlock : (33 : Nat) ∉ [16, 24, 32] ∧ (0 : Nat) ∉ [16, 24, 32] := by decide

theorem witness_block_commands :
    State.reset.slen = 0#8 ∧ aes.Inv ∧ aes.slen ≠ 0#8 ∧ aes.slen = BitVec.ofNat 8 Size.b16.bytes :=
  ⟨rfl, aes_inv, by decide, rfl⟩

theorem witness_RdstReturnsBlock : State.reset.slen = 0#8 ∧ aes.Inv ∧ aes.slen ≠ 0#8 :=
  ⟨rfl, aes_inv, by decide⟩

/-- The three ways to be refused, and both clauses about the index at its boundary. -/
theorem witness_AddrkXorsRoundKey :
    (keyOnly .b16 key16).slen = 0#8 ∧ (blockOnly .b16 block16).ksb = 0#8 ∧
    ({ held .b24 .b16 key16 block16 with slen := 16#8 } : State).slen ≠
      ({ held .b24 .b16 key16 block16 with slen := 16#8 } : State).ksb ∧
    (aes.slen = BitVec.ofNat 8 Size.b16.bytes ∧ aes.ksb = BitVec.ofNat 8 Size.b16.bytes ∧
      aes.klen = BitVec.ofNat 8 Size.b16.bytes ∧ roundCount .b16 .b16 < 11 ∧ aes.Inv ∧
      10 ≤ roundCount .b16 .b16) :=
  ⟨rfl, rfl, by decide, rfl, rfl, rfl, by decide, aes_inv, by decide⟩

theorem witness_SubbSubstitutesEveryByte : State.reset.slen = 0#8 ∧ aes.Inv ∧ aes.slen ≠ 0#8 :=
  witness_RdstReturnsBlock

theorem witness_ShrowRotatesRowsLeft :
    State.reset.slen = 0#8 ∧ (blockOnly .b32 count32).Inv ∧
    (blockOnly .b32 count32).slen = BitVec.ofNat 8 Size.b32.bytes ∧ 7 < Size.b32.columns :=
  ⟨rfl, blockOnly_inv rfl, rfl, by decide⟩

theorem witness_MixcMixesEveryColumn : State.reset.slen = 0#8 ∧ aes.Inv ∧ aes.slen ≠ 0#8 ∧
    3 < aes.slen.toNat / 4 := ⟨rfl, aes_inv, by decide, by decide⟩

theorem witness_EncEncryptsUnderHeldKey :
    (aes.Inv ∧ aes.klen = BitVec.ofNat 8 Size.b16.bytes) ∧ (31 : Nat) ∉ [16, 24, 32] ∧
    (blockOnly .b16 block16).klen = 0#8 := ⟨⟨aes_inv, rfl⟩, by decide, rfl⟩

theorem witness_IsubbSubstitutesBack : State.reset.slen = 0#8 ∧ aes.Inv ∧ aes.slen ≠ 0#8 :=
  witness_RdstReturnsBlock

theorem witness_IshrowRotatesRowsRight :
    State.reset.slen = 0#8 ∧ (blockOnly .b32 count32).Inv ∧
    (blockOnly .b32 count32).slen = BitVec.ofNat 8 Size.b32.bytes ∧ 7 < Size.b32.columns ∧ 31 < Size.b32.bytes :=
  ⟨rfl, blockOnly_inv rfl, rfl, by decide, by decide⟩

theorem witness_ImixcMixesEveryColumnBack : State.reset.slen = 0#8 ∧ aes.Inv ∧ aes.slen ≠ 0#8 ∧
    3 < aes.slen.toNat / 4 := ⟨rfl, aes_inv, by decide, by decide⟩

theorem witness_DecDecryptsUnderHeldKey :
    (aes.Inv ∧ aes.klen = BitVec.ofNat 8 Size.b16.bytes) ∧ (31 : Nat) ∉ [16, 24, 32] ∧
    (blockOnly .b16 block16).klen = 0#8 := ⟨⟨aes_inv, rfl⟩, by decide, rfl⟩

/-- The first generated word, the last one, and one of each branch for a 32-byte key. -/
theorem witness_ExpandKeyWordByWord :
    key32.length = Size.b32.bytes ∧ (expandKey .b16 .b32 key32).length = 240 ∧
    (Size.b32.bytes ≤ 32 ∧ 32 % 4 = 0 ∧ 32 % Size.b32.bytes = 0) ∧
    (Size.b32.bytes ≤ 48 ∧ 48 % 4 = 0 ∧ 48 % Size.b32.bytes = 16) ∧
    (Size.b32.bytes ≤ 236 ∧ 236 % 4 = 0 ∧ 236 < 240) :=
  ⟨rfl, expandKey_length .b16 .b32 rfl, by decide, by decide, by decide⟩

theorem witness_ShorterScheduleIsPrefixOfLonger :
    key16.length = Size.b16.bytes ∧ scheduleBytes .b16 .b16 ≤ scheduleBytes .b32 .b16 := ⟨rfl, by decide⟩

theorem witness_EncryptRoundByRound :
    ∃ S : Nat → List Byte,
      let nr := roundCount .b16 .b16
      let w := expandKey .b16 .b16 key16
      S 0 = addRoundKey .b16 w 0 block16 ∧
      ∀ r, 1 ≤ r → r ≤ nr - 1 →
        S r = addRoundKey .b16 w r (mixColumns (shiftRows .b16 (subBytes (S (r - 1))))) := by
  let w := expandKey .b16 .b16 key16
  refine ⟨fun r => encRounds .b16 w r (addRoundKey .b16 w 0 block16), rfl, fun r h _ => ?_⟩
  obtain ⟨n, rfl⟩ : ∃ n, r = n + 1 := ⟨r - 1, by omega⟩
  rfl

/-- The blocks of a decryption of `block16`, counted from its first round. -/
def decTrace : Nat → List Byte
  | 0 => invSubBytes (invShiftRows .b16 (addRoundKey .b16 (expandKey .b16 .b16 key16) 10 block16))
  | n + 1 => decRound .b16 (expandKey .b16 .b16 key16) (9 - n) (decTrace n)

theorem witness_DecryptRoundByRound :
    ∃ S : Nat → List Byte,
      let nr := roundCount .b16 .b16
      let w := expandKey .b16 .b16 key16
      S (nr - 1) = invSubBytes (invShiftRows .b16 (addRoundKey .b16 w nr block16)) ∧
      ∀ r, 1 ≤ r → r ≤ nr - 1 →
        S (r - 1) = invSubBytes (invShiftRows .b16 (invMixColumns (addRoundKey .b16 w r (S r)))) := by
  refine ⟨fun r => decTrace (9 - r), rfl, fun r h h9 => ?_⟩
  have h9 : r ≤ 9 := h9
  show decTrace (9 - (r - 1)) = decRound .b16 (expandKey .b16 .b16 key16) r (decTrace (9 - r))
  rw [show 9 - (r - 1) = (9 - r) + 1 by omega, decTrace, show 9 - (9 - r) = r by omega]

/-- V31: `53` and `CA` are inverse; and a non-zero byte. -/
theorem witness_SboxIsAffineOfInverse : gfMul 0x53#8 0xCA#8 = 1#8 ∧ (0xFF#8 : Byte) ≠ 0#8 := by decide

theorem witness_RowShiftTablesFollowOffsets :
    3 < Size.b16.columns ∧ 5 < Size.b24.columns ∧ 7 < Size.b32.columns := by decide

theorem witness_RoundCountByLargerLength :
    (0#8).toNat ∉ [16, 24, 32] ∧ (17#8).toNat ∉ [16, 24, 32] := by decide

theorem witness_InverseTransformRestoresBlock : aes.Inv ∧ aes.slen ≠ 0#8 := ⟨aes_inv, by decide⟩

theorem witness_AddrkTwiceRestoresBlock :
    aes.Inv ∧ aes.slen = BitVec.ofNat 8 Size.b16.bytes ∧ aes.ksb = BitVec.ofNat 8 Size.b16.bytes ∧
    aes.klen = BitVec.ofNat 8 Size.b16.bytes ∧ 10 ≤ roundCount .b16 .b16 :=
  ⟨aes_inv, rfl, rfl, rfl, by decide⟩

theorem witness_SubstitutionCommutesWithRowShift : aes.Inv ∧ aes.slen ≠ 0#8 := ⟨aes_inv, by decide⟩

theorem witness_DecryptionInvertsEncryption :
    (keyOnly .b32 key32).Inv ∧ (keyOnly .b32 key32).klen = BitVec.ofNat 8 Size.b32.bytes :=
  ⟨keyOnly_inv rfl, rfl⟩

theorem witness_EncEqualsItsCommandSequence :
    (keyOnly .b32 key32).Inv ∧ (keyOnly .b32 key32).klen = BitVec.ofNat 8 Size.b32.bytes :=
  ⟨keyOnly_inv rfl, rfl⟩

theorem witness_DecEqualsItsCommandSequence :
    (keyOnly .b32 key32).Inv ∧ (keyOnly .b32 key32).klen = BitVec.ofNat 8 Size.b32.bytes :=
  ⟨keyOnly_inv rfl, rfl⟩

theorem witness_LdkeyDropsScheduleUntilExpansion :
    State.reset.ksb = 0#8 ∧ (keyOnly .b16 key16).ksb = 0#8 ∧
    ∃ t, exec (.expand 16) (keyOnly .b16 key16) = .next t ∧ (t.ksb != 0#8) = true :=
  ⟨rfl, rfl, exists_next (by decide +kernel)⟩

theorem witness_ReexpansionChangesNoRegister : aes.Inv ∧ aes.ksb = BitVec.ofNat 8 Size.b16.bytes :=
  ⟨aes_inv, rfl⟩

theorem witness_EveryStepKeepsInvariants :
    (aes.withCommands [.stat]).Inv ∧
    ∃ t, step (aes.withCommands [.stat]) = .next t ∧ (t.outbox.length == 1) = true :=
  ⟨aes_inv, exists_next (by decide +kernel)⟩

theorem witness_InvariantsBoundTheArrays : aes.Inv ∧ aes.ksb = BitVec.ofNat 8 Size.b16.bytes := ⟨aes_inv, rfl⟩

/-- A command, a reset between commands, a reset during one, and no event. -/
theorem witness_EveryEventIsAnswered :
    (aes.withCommands [.stat]).Inv ∧ ({ aes with inbox := [.reset none] } : State).Inv ∧
    ({ aes with inbox := [.reset (some (encode .stat))] } : State).Inv ∧ (aes.Inv ∧ aes.inbox = []) :=
  ⟨aes_inv, aes_with_inbox_inv _, aes_with_inbox_inv _, aes_inv, rfl⟩

/-- A list with a command and a reset, and the end of the list (log 7). -/
theorem witness_NoRunEverStops :
    ({ aes with inbox := [.command (encode .stat), .reset none] } : State).Inv ∧ (aes.Inv ∧ aes.inbox = []) :=
  ⟨aes_with_inbox_inv _, aes_inv, rfl⟩

/-- A failing command: `SUBB` after reset. -/
theorem witness_FailingCommandWritesNoRegister :
    (State.reset.withCommands [.subb]).inbox = .command (encode .subb) :: [] ∧ (0x03#8 : BitVec 8) ≠ 0x00#8 ∧
    ∃ t, step (State.reset.withCommands [.subb]) = .next t ∧
      (t.outbox == State.reset.outbox ++ [errResponse 0x03#8 0#16]) = true :=
  ⟨rfl, by decide, exists_next (by decide +kernel)⟩

/-- V60: `LDKEY 255`. -/
theorem witness_StatusCodesAndWhoRaisesThem :
    (State.reset.withCommands [.ldkey 255 0]).inbox = .command (encode (.ldkey 255 0)) :: [] ∧
    ∃ t, step (State.reset.withCommands [.ldkey 255 0]) = .next t ∧
      (t.outbox == State.reset.outbox ++ [errResponse 0x01#8 2040#16]) = true :=
  ⟨rfl, exists_next (by decide +kernel)⟩

theorem witness_ResponseLengthAndPadding :
    (aes.withCommands [.rdst]).Inv ∧ (aes.withCommands [.rdst]).inbox = .command (encode .rdst) :: [] ∧
    (∃ t, step (aes.withCommands [.rdst]) = .next t ∧
      (t.outbox == aes.outbox ++ [okResponse block16]) = true) ∧
    16 < Config.busBytes ∧ (16#8).toNat ≤ 16 :=
  ⟨aes_inv, rfl, exists_next (by decide +kernel), by decide, by decide⟩

/-- Two operands that differ from byte 16 on; and a sequence that fills the bus. -/
theorem witness_BusLanesAndIgnoredBytes :
    (∀ i < 16, busByte 0#256 i = busByte (1#256 <<< 128) i) ∧ 0#256 ≠ 1#256 <<< 128 ∧
    count32.length ≤ Config.busBytes ∧ 31 < Config.busBytes := by decide +kernel

/-- A change of each of the six registers. -/
theorem witness_OnlyListedCommandsWriteARegister :
    (∃ t, exec (.ldkey 24 0) aes = .next t ∧
      (t.key != aes.key && t.klen != aes.klen && t.ks != aes.ks && t.ksb != aes.ksb) = true) ∧
    ∃ t, exec (.ldst 24 0) aes = .next t ∧ (t.st != aes.st && t.slen != aes.slen) = true :=
  ⟨exists_next (by decide +kernel), exists_next (by decide +kernel)⟩

theorem witness_ReadingCommandsAreIdempotent :
    ∀ i ∈ [Instr.rdrk 10, .rdst, .stat], ∃ t, exec i aes = .next t ∧ (t.outbox.length == 1) = true :=
  fun i hi => exists_next (p := fun t => t.outbox.length == 1)
    ((by decide +kernel : ∀ i ∈ [Instr.rdrk 10, .rdst, .stat],
      nextWith (fun t => t.outbox.length == 1) (exec i aes) = true) i hi)

theorem witness_ResponseDependsOnRegistersOnly :
    aes.toRegs = (aes.withCommands [.stat]).toRegs ∧ aes ≠ aes.withCommands [.stat] ∧
    ∃ t, exec .stat aes = .next t ∧ (t.outbox.length == 1) = true :=
  ⟨rfl, fun h => absurd (congrArg State.inbox h) (by simp [aes, held, commandEvents]),
    exists_next (by decide +kernel)⟩

end Sys2Proof.Tests
end

/-! Proofs of the family 00_scope.md: what a step is (R8), and that a command reads the registers alone (R9). -/

namespace Sys2Proof.Machine

/-! ### A step at a command (00_scope.md R8; 30_encoding.md R88) -/

/-- The step takes the command off the host's list before it decodes it. -/
theorem step_of_command {s : State} {c : Command} {rest : List HostEvent} (h : s.inbox = .command c :: rest) :
    step s = stepCommand c { s with inbox := rest } := by
  simp only [step, fetch, h]

theorem stepCommand_of_decode {c : Command} {i : Instr} (h : decode c = .ok i) (s : State) :
    stepCommand c s = exec i s := by
  simp only [stepCommand, h]

/-- Settles O6: the step takes the command, which decodes to `i`. -/
theorem stepRunsTheDecodedCommand : Obligations.StepRunsTheDecodedCommand := fun s _ rest _ hin hdec =>
  (step_of_command hin).trans (stepCommand_of_decode hdec { s with inbox := rest })

/-! ### A command reads the registers alone (00_scope.md R9)

Two states with the same registers are run side by side. Each shared operation of the model keeps the two
results alike when what it goes on with does, so each command does. -/

/-- The results of one command at `s` and at `s'`: the same registers and the same one response, each on its own
host's lists, or the same fault. -/
inductive AnswersAlike (s s' : State) : Result → Result → Prop
  | answer (g : Regs) (r : Response) :
      AnswersAlike s s' (.next (State.answered { s with toRegs := g } r))
        (.next (State.answered { s' with toRegs := g } r))
  | fault (f : Fault) : AnswersAlike s s' (.fault f) (.fault f)

section
variable {s s' : State} (h : s.toRegs = s'.toRegs)
include h

theorem raiseError_alike (e : CommandError) : AnswersAlike s s' (raiseError e s) (raiseError e s') := by
  rw [raiseError_eq, raiseError_eq, State.answered, h]
  exact .answer _ _

theorem respondOk_alike (data : List Byte) : AnswersAlike s s' (respondOk data s) (respondOk data s') := by
  rw [respondOk_eq, respondOk_eq, State.answered, h]
  exact .answer _ _

theorem withKey_alike {go go' : Size → List Byte → Result}
    (hgo : ∀ k key, AnswersAlike s s' (go k key) (go' k key)) :
    AnswersAlike s s' (withKey s go) (withKey s' go') := by
  unfold withKey
  rw [h]
  split
  · exact raiseError_alike h .seq
  · split
    · exact .fault _
    · split
      · exact .fault _
      · exact hgo _ _

theorem withBlock_alike {go go' : List Byte → Result} (hgo : ∀ blk, AnswersAlike s s' (go blk) (go' blk)) :
    AnswersAlike s s' (withBlock s go) (withBlock s' go') := by
  unfold withBlock
  rw [h]
  split
  · exact raiseError_alike h .seq
  · split
    · exact .fault _
    · exact hgo _

theorem withRoundKey_alike {r : Nat} {go go' : List Byte → Result}
    (hgo : ∀ rk, AnswersAlike s s' (go rk) (go' rk)) :
    AnswersAlike s s' (withRoundKey r s go) (withRoundKey r s' go') := by
  unfold withRoundKey
  rw [h]
  split
  · exact .fault _
  · split
    · exact raiseError_alike h (.range r)
    · split
      · exact .fault _
      · exact hgo _

theorem storeBlock_alike (blk : List Byte) : AnswersAlike s s' (storeBlock blk s) (storeBlock blk s') := by
  unfold storeBlock memWriteSt
  rw [h]
  by_cases hl : 0 + blk.length ≤ s'.st.length
  · simp only [hl, if_true]
    exact .answer { s'.toRegs with st := splice s'.st 0 blk } (okResponse [])
  · simp only [hl, if_false]
    exact .fault _

theorem transformBlock_alike (f : List Byte → List Byte) :
    AnswersAlike s s' (transformBlock f s) (transformBlock f s') :=
  withBlock_alike h fun blk => storeBlock_alike h (f blk)

theorem transformSized_alike (f : Size → List Byte → List Byte) :
    AnswersAlike s s' (transformSized f s) (transformSized f s') := by
  refine withBlock_alike h fun blk => ?_
  rw [h]
  split
  · exact .fault _
  · exact storeBlock_alike h _

theorem cipherCommand_alike (f : Size → Size → List Byte → List Byte → List Byte) (b : Nat) (din : BitVec 256) :
    AnswersAlike s s' (cipherCommand f b din s) (cipherCommand f b din s') := by
  unfold cipherCommand
  split
  · exact raiseError_alike h (.blockSize b)
  · refine withKey_alike h fun k key => ?_
    rw [respondOk_eq, holdBlock, holdSchedule, h]
    exact .answer _ _

theorem execLdkey_alike (k : Nat) (din : BitVec 256) :
    AnswersAlike s s' (execLdkey k din s) (execLdkey k din s') := by
  unfold execLdkey
  split
  · exact raiseError_alike h (.keySize k)
  · rw [h]
    exact .answer _ _

theorem execExpand_alike (b : Nat) : AnswersAlike s s' (execExpand b s) (execExpand b s') := by
  unfold execExpand
  split
  · exact raiseError_alike h (.blockSize b)
  · refine withKey_alike h fun k key => ?_
    rw [respondOk_eq, holdSchedule, h]
    exact .answer _ _

theorem execRdrk_alike (r : Nat) : AnswersAlike s s' (execRdrk r s) (execRdrk r s') := by
  unfold execRdrk
  rw [h]
  split
  · exact raiseError_alike h .seq
  · exact withRoundKey_alike h fun rk => respondOk_alike h rk

theorem execStat_alike : AnswersAlike s s' (execStat s) (execStat s') := by
  unfold execStat
  rw [h]
  split
  · exact respondOk_alike h _
  · split
    · exact .fault _
    · exact respondOk_alike h _

theorem execLdst_alike (b : Nat) (din : BitVec 256) :
    AnswersAlike s s' (execLdst b din s) (execLdst b din s') := by
  unfold execLdst
  split
  · exact raiseError_alike h (.blockSize b)
  · rw [respondOk_eq, holdBlock, h]
    exact .answer _ _

theorem execAddrk_alike (r : Nat) : AnswersAlike s s' (execAddrk r s) (execAddrk r s') := by
  unfold execAddrk
  rw [h]
  split
  · exact raiseError_alike h .seq
  · exact withRoundKey_alike h fun rk => transformBlock_alike h fun blk => xorBytes blk rk

/-- No command reads the host's lists (00_scope.md R9). -/
theorem exec_alike (i : Instr) : AnswersAlike s s' (exec i s) (exec i s') := by
  cases i with
  | ldkey k din => exact execLdkey_alike h k din
  | expand b => exact execExpand_alike h b
  | rdrk r => exact execRdrk_alike h r
  | stat => exact execStat_alike h
  | ldst b din => exact execLdst_alike h b din
  | rdst => exact withBlock_alike h fun blk => respondOk_alike h blk
  | addrk r => exact execAddrk_alike h r
  | subb => exact transformBlock_alike h subBytes
  | shrow => exact transformSized_alike h shiftRows
  | mixc => exact transformBlock_alike h mixColumns
  | enc b din => exact cipherCommand_alike h encrypt b din
  | isubb => exact transformBlock_alike h invSubBytes
  | ishrow => exact transformSized_alike h invShiftRows
  | imixc => exact transformBlock_alike h invMixColumns
  | dec b din => exact cipherCommand_alike h decrypt b din

end

/-- Of two results that are alike, when one is a next state so is the other, with the same registers and the same
response after what the host had already seen. -/
theorem AnswersAlike.of_next {s s' t : State} {o o' : Result} (h : AnswersAlike s s' o o') (ho : o = .next t) :
    ∃ t' r, o' = .next t' ∧ t'.toRegs = t.toRegs ∧
      t.outbox = s.outbox ++ [r] ∧ t'.outbox = s'.outbox ++ [r] ∧ t.inbox = s.inbox ∧ t'.inbox = s'.inbox := by
  cases h with
  | answer g r =>
    cases ho
    exact ⟨_, r, rfl, rfl, rfl, rfl, rfl, rfl⟩
  | fault f => cases ho

/-- Settles O56: the command is run at the two states side by side. -/
theorem responseDependsOnRegistersOnly : Obligations.ResponseDependsOnRegistersOnly :=
  fun i _ _ _ hregs hexec => (exec_alike hregs i).of_next hexec

end Sys2Proof.Machine

/-! Proofs of the family 10_state.md: the reset values (R33), the invariants (R22, R24, R26, R27) and the access
table (R32). -/

namespace Sys2Proof.Machine

/-! ### Length registers (10_state.md R22, R24, R26) -/

@[simp] theorem legalLen_zero : legalLen 0#8 = true := rfl

@[simp] theorem legalLen_toReg (b : Size) : legalLen b.toReg = true := legalLen_iff.mpr (.inr ⟨b, rfl⟩)

@[simp] theorem size_ofReg?_zero : Size.ofReg? 0#8 = none := rfl

theorem size_bytes_le (b : Size) : b.bytes ≤ 32 := by cases b <;> decide

theorem legalLen_toNat_le {r : BitVec 8} (h : legalLen r = true) : r.toNat ≤ 32 := by
  rcases legalLen_iff.mp h with rfl | ⟨b, rfl⟩
  · decide
  · rw [size_toReg_toNat]; exact size_bytes_le b

/-- The longest schedule, 15 round keys of 32 bytes, fits `KS` (10_state.md R20). -/
theorem scheduleBytes_le_ksCapacity (b k : Size) : scheduleBytes b k ≤ Config.ksCapacity := by
  cases b <;> cases k <;> decide

/-! ### What the invariants say of the key -/

theorem key_length_of_inv {s : Regs} (hi : s.Inv) {k : Size} (hk : s.klen = k.toReg) :
    s.key.length = k.bytes := by
  rw [hi.keyLength, hk, size_toReg_toNat]

/-- A command that reads the whole key reads `KEY`. -/
theorem memRead_key_of_inv {s : Regs} (hi : s.Inv) {k : Size} (hk : s.klen = k.toReg) {key : List Byte}
    (hm : memRead .key 0 k.bytes s = some key) : key = s.key := by
  rw [memRead_all (sp := .key) (key_length_of_inv hi hk)] at hm
  exact (Option.some.inj hm).symm

/-- With a schedule held, so is a key (10_state.md R27). -/
theorem klen_of_inv {s : Regs} (hi : s.Inv) {b : Size} (hb : s.ksb = b.toReg) : ∃ k : Size, s.klen = k.toReg := by
  obtain ⟨k, hk, -⟩ := hi.schedule b (size_ofReg?_eq_some.mpr hb)
  exact ⟨k, size_ofReg?_eq_some.mp hk⟩

/-! ### Every write of the registers keeps the invariants -/

theorem regs_reset_inv : Regs.reset.Inv where
  klenLegal := rfl
  ksbLegal := rfl
  slenLegal := rfl
  keyLength := rfl
  stLength := rfl
  noSchedule _ := rfl
  schedule b hb := by simp [Regs.reset] at hb

/-- A new key of the length its register says, with the schedule dropped (41_key_schedule.md R140). -/
theorem loadKey_inv {s : Regs} (hi : s.Inv) (k : Size) {key : List Byte} (hl : key.length = k.bytes) :
    Regs.Inv { s with key := key, klen := k.toReg, ks := [], ksb := 0#8 } where
  klenLegal := legalLen_toReg k
  ksbLegal := legalLen_zero
  slenLegal := hi.slenLegal
  keyLength := hl.trans (size_toReg_toNat k).symm
  stLength := hi.stLength
  noSchedule _ := rfl
  schedule b hb := by simp at hb

/-- The schedule of the held key (41_key_schedule.md R142). -/
theorem holdSchedule_inv {s : State} (hi : s.Inv) (b : Size) {k : Size} (hk : s.klen = k.toReg) :
    (holdSchedule b k s.key s).Inv where
  klenLegal := hi.klenLegal
  ksbLegal := legalLen_toReg b
  slenLegal := hi.slenLegal
  keyLength := hi.keyLength
  stLength := hi.stLength
  noSchedule h0 := absurd h0 (size_toReg_ne_zero b)
  schedule b' hb' := by
    rw [holdSchedule_ksb, size_ofReg?_toReg, Option.some.injEq] at hb'
    exact ⟨k, size_ofReg?_eq_some.mpr hk, by rw [hb']; rfl⟩

/-- A new block of the length its register says (42_fwd_transform.md R170). -/
theorem holdBlock_inv {s : State} (hi : s.Inv) (b : Size) {blk : List Byte} (hl : blk.length = b.bytes) :
    (holdBlock b blk s).Inv :=
  { hi with slenLegal := legalLen_toReg b, stLength := hl.trans (size_toReg_toNat b).symm }

/-- A block of the same length in place (42_fwd_transform.md R172 to R175). -/
theorem replaceBlock_inv {s : Regs} (hi : s.Inv) {blk : List Byte} (hl : blk.length = s.st.length) :
    Regs.Inv { s with st := blk } :=
  { hi with stLength := hl.trans hi.stLength }

/-- No effect of a command breaks the invariants: it answers and writes nothing, or it is one of the writes
above. -/
theorem ExecCase.inv {i : Instr} {s t : State} (h : ExecCase i s t) (hi : s.Inv) : t.Inv := by
  cases h with
  | keySize | blockSize | seq | range | read => exact hi
  | loadKey k d => exact loadKey_inv hi k (busTake_length d k.bytes)
  | loadBlock b d => exact holdBlock_inv hi b (busTake_length d b.bytes)
  | transform blk _ hl => exact replaceBlock_inv hi hl
  | expand b k key _ hk hm =>
    obtain rfl := memRead_key_of_inv hi hk hm
    exact holdSchedule_inv hi b hk
  | cipher b k key d f hf hk hm =>
    obtain rfl := memRead_key_of_inv hi hk hm
    have hl : (f b k s.key (busTake d b.bytes)).length = b.bytes := by
      rcases hf with ⟨-, rfl⟩ | ⟨-, rfl⟩
      · exact encrypt_length b k (key_length_of_inv hi hk) _
      · exact decrypt_length b k (key_length_of_inv hi hk) _
    exact holdBlock_inv (holdSchedule_inv hi b hk) b hl

/-- Settles O46: a step waits, resets, refuses a word, or executes a command, and each keeps the invariants. -/
theorem everyStepKeepsInvariants : Obligations.EveryStepKeepsInvariants := by
  intro s t hi h
  rcases step_cases h with ⟨-, rfl⟩ | ⟨_, _, -, rfl⟩ | ⟨_, _, -, ⟨i, -, hcase⟩ | ⟨_, -, rfl⟩⟩
  · exact hi
  · exact regs_reset_inv
  · exact hcase.inv hi
  · exact hi

/-! ### Capacities (10_state.md R20) -/

/-- `KS` is empty or holds a whole schedule. -/
theorem ks_length_le_of_inv {s : State} (hi : s.Inv) : s.ks.length ≤ Config.ksCapacity := by
  rcases legalLen_iff.mp hi.ksbLegal with h0 | ⟨b, hb⟩
  · rw [hi.noSchedule h0]; exact Nat.zero_le _
  · obtain ⟨k, hk⟩ := klen_of_inv hi hb
    rw [(schedule_of_inv hi hb hk).2]
    exact scheduleBytes_le_ksCapacity b k

/-- A held schedule starts with the key (41_key_schedule.md R145). -/
theorem ks_take_key_of_inv {s : State} (hi : s.Inv) {b k : Size} (hb : s.ksb = b.toReg) (hk : s.klen = k.toReg) :
    s.ks.take k.bytes = s.key := by
  rw [(schedule_of_inv hi hb hk).1, expandKey_take_key b k (key_length_of_inv hi hk)]

/-- Settles O47: the length registers bound `KEY` and `ST`, and the held schedule is an expansion of `KEY`. -/
theorem invariantsBoundTheArrays : Obligations.InvariantsBoundTheArrays := by
  intro s hi
  refine ⟨?_, ks_length_le_of_inv hi, ?_, fun b hb => ?_⟩
  · rw [hi.keyLength]; exact legalLen_toNat_le hi.klenLegal
  · rw [hi.stLength]; exact legalLen_toNat_le hi.slenLegal
  · obtain ⟨k, hk⟩ := klen_of_inv hi hb
    exact ⟨k, hk, (schedule_of_inv hi hb hk).2, ks_take_key_of_inv hi hb hk⟩

/-! ### The access table, write columns (10_state.md R32)

In each lemma the named cases are the effects that write the register; every other effect keeps it, so that the
hypothesis of a change is absurd. -/

theorem plainTransform_iff {i : Instr} :
    plainTransform i = true ↔ i ∈ [.subb, .shrow, .mixc, .isubb, .ishrow, .imixc] := by
  cases i <;> simp [plainTransform]

section
variable {i : Instr} {s t : State} (h : ExecCase i s t)
include h

theorem ExecCase.writes_key (hne : t.key ≠ s.key ∨ t.klen ≠ s.klen) : ∃ k d, i = .ldkey k d := by
  cases h with
  | loadKey k d hi => exact ⟨k.bytes, d, hi⟩
  | _ => simp at hne

theorem ExecCase.writes_ks (hne : t.ks ≠ s.ks ∨ t.ksb ≠ s.ksb) :
    ∃ n d, i ∈ [.ldkey n d, .expand n, .enc n d, .dec n d] := by
  cases h with
  | loadKey k d hi => exact ⟨k.bytes, d, by simp [hi]⟩
  | expand b _ _ hi => exact ⟨b.bytes, 0, by simp [hi]⟩
  | cipher b _ _ d _ hi => exact ⟨b.bytes, d, by simp [hi.imp And.left And.left]⟩
  | _ => simp at hne

theorem ExecCase.writes_slen (hne : t.slen ≠ s.slen) : ∃ n d, i ∈ [.ldst n d, .enc n d, .dec n d] := by
  cases h with
  | loadBlock b d hi => exact ⟨b.bytes, d, by simp [hi]⟩
  | cipher b _ _ d _ hi => exact ⟨b.bytes, d, by simp [hi.imp And.left And.left]⟩
  | _ => simp at hne

theorem ExecCase.writes_st (hne : t.st ≠ s.st) :
    ∃ n d, i ∈ [.ldst n d, .addrk n, .subb, .shrow, .mixc, .isubb, .ishrow, .imixc, .enc n d, .dec n d] := by
  cases h with
  | loadBlock b d hi => exact ⟨b.bytes, d, by simp [hi]⟩
  | cipher b _ _ d _ hi => exact ⟨b.bytes, d, by simp [hi.imp And.left And.left]⟩
  | transform _ hi =>
    rcases hi with hi | ⟨r, rfl⟩
    · exact ⟨0, 0, List.mem_append_right [Instr.ldst 0 0, Instr.addrk 0]
        (List.mem_append_left [Instr.enc 0 0, Instr.dec 0 0] (plainTransform_iff.mp hi))⟩
    · exact ⟨r, 0, by simp⟩
  | _ => simp at hne

end

/-- Settles O54, register by register over the effects a command can have. -/
theorem onlyListedCommandsWriteARegister : Obligations.OnlyListedCommandsWriteARegister := fun _ _ _ h =>
  have hcase := exec_cases h
  ⟨hcase.writes_key, hcase.writes_ks, hcase.writes_st, hcase.writes_slen⟩

/-! ### Reset (10_state.md R33) -/

/-- Settles O8: both sides are the same literal. -/
theorem resetValuesOfTheRegisters : Obligations.ResetValuesOfTheRegisters := rfl

/-- Settles O45: the reset registers satisfy the invariants, as after a reset event (O46). -/
theorem invariantsHoldAtReset : Obligations.InvariantsHoldAtReset := regs_reset_inv

end Sys2Proof.Machine

/-! Proofs of the family 20_memory.md: the byte lanes of the bus (R55) and the commands that only read (R59). -/

namespace Sys2Proof

/-! ### Byte lanes (20_memory.md R55) -/

@[simp] theorem busByte_zero (i : Nat) : busByte 0#256 i = 0#8 := by simp [busByte]

theorem busByte_busOf_cons_zero (b : Byte) (bs : List Byte) : busByte (busOf (b :: bs)) 0 = b := by
  apply BitVec.eq_of_getLsbD_eq
  intro j hj
  simp [busByte, busOf, hj, show j < 256 by omega]

/-- The first byte of a sequence moves the others up by one lane. -/
theorem busByte_busOf_cons_succ (b : Byte) (bs : List Byte) {i : Nat} (hi : i + 1 < Config.busBytes) :
    busByte (busOf (b :: bs)) (i + 1) = busByte (busOf bs) i := by
  have hi32 : i + 1 < 32 := hi
  apply BitVec.eq_of_getLsbD_eq
  intro j hj
  have hb : b.getLsbD (8 * (i + 1) + j) = false := BitVec.getLsbD_of_ge b _ (by omega)
  simp [busByte, busOf, hj, hb, show 8 * (i + 1) + j < 256 by omega, show ¬ 8 * (i + 1) + j < 8 by omega,
    show 8 * (i + 1) + j - 8 = 8 * i + j by omega]
  exact (BitVec.getLsbD_eq_getElem _).symm

/-- Lane `i` carries byte `i`, and zero beyond the end of the sequence. -/
theorem busByte_busOf (l : List Byte) {i : Nat} (hi : i < Config.busBytes) :
    busByte (busOf l) i = (l[i]?).getD 0#8 := by
  induction l generalizing i with
  | nil => simp [busOf]
  | cons b bs ih =>
    cases i with
    | zero => simp [busByte_busOf_cons_zero]
    | succ i => rw [busByte_busOf_cons_succ b bs hi, ih (Nat.lt_of_succ_lt hi), List.getElem?_cons_succ]

namespace Machine

/-! ### The data operand below the length argument (20_memory.md R55)

A command reads its operand only once its length argument is a size, and then only the bytes below it. -/

section
variable {n : Nat} {d e : BitVec 256} (h : busTake d n = busTake e n)
include h

theorem execLdkey_congr (s : State) : execLdkey n d s = execLdkey n e s := by
  unfold execLdkey
  split
  next => rfl
  next k hk => rw [← size_ofNat?_eq_some.mp hk, h]

theorem execLdst_congr (s : State) : execLdst n d s = execLdst n e s := by
  unfold execLdst
  split
  next => rfl
  next b hb => rw [← size_ofNat?_eq_some.mp hb, h]

theorem cipherCommand_congr (f : Size → Size → List Byte → List Byte → List Byte) (s : State) :
    cipherCommand f n d s = cipherCommand f n e s := by
  unfold cipherCommand
  split
  next => rfl
  next b hb => rw [← size_ofNat?_eq_some.mp hb, h]

end

/-- Settles O53: lane by lane for the bus, command by command for the operand. -/
theorem busLanesAndIgnoredBytes : Obligations.BusLanesAndIgnoredBytes := by
  refine ⟨fun l i _ hi => busByte_busOf l hi, fun n d e s hbytes => ?_⟩
  have h : busTake d n = busTake e n := busTake_congr hbytes
  exact ⟨execLdkey_congr h s, execLdst_congr h s, cipherCommand_congr h encrypt s, cipherCommand_congr h decrypt s⟩

/-! ### Commands that only read (20_memory.md R59) -/

theorem plainTransform_of_reading {i : Instr} {r : Nat} (hread : i ∈ [.rdrk r, .rdst, .stat]) :
    plainTransform i = false := by
  simp only [List.mem_cons, List.not_mem_nil, or_false] at hread
  rcases hread with rfl | rfl | rfl <;> rfl

/-- An answer without an effect is all that a reading command can give. -/
theorem ExecCase.toRegs_of_reading {i : Instr} {s t : State} (h : ExecCase i s t) {r : Nat}
    (hread : i ∈ [.rdrk r, .rdst, .stat]) : t.toRegs = s.toRegs := by
  cases h with
  | keySize | blockSize | seq | range | read => rfl
  | loadKey k d hi | loadBlock b d hi | expand b k key hi => simp [hi] at hread
  | cipher b k key d f hf =>
    rcases hf with ⟨rfl, -⟩ | ⟨rfl, -⟩ <;> simp at hread
  | transform blk hi =>
    rcases hi with hi | ⟨r, rfl⟩
    · simp [plainTransform_of_reading hread] at hi
    · simp at hread

/-- Settles O55: the registers are as before, and the response depends on them alone (O56). -/
theorem readingCommandsAreIdempotent : Obligations.ReadingCommandsAreIdempotent := by
  intro s t r i hread hexec
  have hregs : t.toRegs = s.toRegs := (exec_cases hexec).toRegs_of_reading hread
  obtain ⟨u, y, hu, hut, hty, huy, -, -⟩ := responseDependsOnRegistersOnly i s t t hregs.symm hexec
  exact ⟨hregs, u, y, hu, hut.trans hregs, hty, huy⟩

end Machine

end Sys2Proof

/-! Proofs of the family 30_encoding.md: the decoder and the encoder (R82, R88), the opcode table (R83, R84), and the
one response of every command (R80, R87). -/

namespace Sys2Proof

/-! ### The decoder read field by field (30_encoding.md R81, R82, R88) -/

/-- The argument fits its field; one that is missing counts as 0 and fits too. -/
theorem wellFormed_iff {i : Instr} : i.wellFormed = true ↔ argOf i ≤ 255 := by
  cases i <;> simp [Instr.wellFormed, argFits, argOf]

/-- The values of `OP` whose instructions carry the data operand: `LDKEY`, `LDST`, `ENC`, `DEC` (log 10). -/
def dataOps : List (BitVec 8) := [0x10#8, 0x20#8, 0x2F#8, 0x3F#8]

theorem dinOf_eq_ite (i : Instr) : dinOf i = if opcode i ∈ dataOps then dinOf i else 0#256 := by
  cases i <;> simp [dinOf, opcode, dataOps]

/-- The fields of the command are those of the instruction. The decoder answers exactly such an instruction:
`selects_of_decode`, `decode_of_selects`. -/
structure Command.Selects (c : Command) (i : Instr) : Prop where
  op  : opField c.cw = opcode i
  arg : (argField c.cw).toNat = argOf i
  din : dinOf i = if opField c.cw ∈ dataOps then c.din else 0#256

theorem selects_of_decode {c : Command} {i : Instr} (h : decode c = .ok i) : c.Selects i := by
  dsimp only [decode] at h
  split at h
  case h_16 => cases h
  all_goals
    rename_i hop
    simp only [requireZeroArg_eq_ok, Except.ok.injEq] at h
  case h_1 | h_2 | h_3 | h_5 | h_7 | h_11 | h_15 => -- the rows with an argument
    subst h
    exact ⟨hop, rfl, by rw [hop]; rfl⟩
  all_goals -- the rows whose argument must be zero
    obtain ⟨harg, rfl⟩ := h
    exact ⟨hop, by rw [harg]; rfl, by rw [hop]; rfl⟩

theorem decode_of_selects {c : Command} {i : Instr} (h : c.Selects i) : decode c = .ok i := by
  obtain ⟨hop, harg, hdin⟩ := h
  cases i with
  | ldkey k d | ldst k d | enc k d | dec k d =>
    obtain rfl : d = c.din := by simpa [hop, dataOps, opcode, dinOf] using hdin
    simp [decode, hop, opcode, harg, argOf]
  | expand k | rdrk k | addrk k => simp [decode, hop, opcode, harg, argOf]
  | stat | rdst | subb | shrow | mixc | isubb | ishrow | imixc =>
    have h0 : argField c.cw = 0#8 := BitVec.eq_of_toNat_eq harg
    simp [decode, hop, opcode, h0]

theorem selects_encode {i : Instr} (hw : i.wellFormed = true) : (encode i).Selects i := by
  obtain ⟨hop, harg⟩ : Laws.OpField.Statement i := Laws.OpField.of_fits wellFormed_iff.mp
  exact ⟨hop, harg hw, by rw [hop]; exact dinOf_eq_ite i⟩

theorem Command.Selects.wellFormed {c : Command} {i : Instr} (h : c.Selects i) : i.wellFormed = true :=
  wellFormed_iff.mpr (h.arg ▸ Nat.le_of_lt_succ (argField c.cw).isLt)

theorem Command.Selects.encode_cw {c : Command} {i : Instr} (h : c.Selects i) : (encode i).cw = c.cw := by
  rw [encode, ← h.op, ← h.arg, BitVec.ofNat_toNat, BitVec.setWidth_eq, packWord_fields]

/-- Settles O1: the encoding has the instruction's fields, which are all that the decoder reads. -/
theorem decodeOfEncodeIsIdentity : Obligations.DecodeOfEncodeIsIdentity := fun _ hw =>
  decode_of_selects (selects_encode hw)

/-- Settles O2: the word is packed again from the two fields that the decoder read. -/
theorem decodedWordEncodesBack : Obligations.DecodedWordEncodesBack := fun _ _ hdec =>
  have h := selects_of_decode hdec
  ⟨h.wellFormed, h.encode_cw, h.din⟩

/-- Settles O5: each word is a literal, and the decoder is evaluated on its two fields. -/
theorem wordsOfTheTableDecode : Obligations.WordsOfTheTableDecode := by
  simp [Obligations.WordsOfTheTableDecode, decode, opField, argField, requireZeroArg]

/-! ### The opcode table (30_encoding.md R83, R84) -/

theorem word_eq_iff {v w : BitVec 16} : v = w ↔ opField v = opField w ∧ argField v = argField w :=
  ⟨fun h => h ▸ ⟨rfl, rfl⟩, fun ⟨hop, harg⟩ => by rw [← packWord_fields v, hop, harg, packWord_fields]⟩

theorem opField_and (v w : BitVec 16) : opField (v &&& w) = opField v &&& opField w := BitVec.extractLsb'_and

theorem argField_and (v w : BitVec 16) : argField (v &&& w) = argField v &&& argField w := BitVec.extractLsb'_and

/-- The values of `OP` whose rows leave `ARG` free. -/
def argOps : List (BitVec 8) := [0x10#8, 0x11#8, 0x12#8, 0x20#8, 0x22#8, 0x2F#8, 0x3F#8]

/-- The values of `OP` whose rows require `ARG = 0`. -/
def plainOps : List (BitVec 8) := [0x13#8, 0x21#8, 0x23#8, 0x24#8, 0x25#8, 0x33#8, 0x34#8, 0x35#8]

/-- Every row fixes `OP` whole, and of `ARG` either nothing or all of it, to zero. -/
theorem row_fields : ∀ row ∈ opcodeTable, opField row.mask = BitVec.allOnes 8 ∧ argField row.pattern = 0#8 ∧
    (opField row.pattern ∈ argOps ∧ argField row.mask = 0#8 ∨
      opField row.pattern ∈ plainOps ∧ argField row.mask = BitVec.allOnes 8) := by
  decide

theorem exists_row_of_argOp : ∀ op ∈ argOps, ∃ row ∈ opcodeTable,
    opField row.pattern = op ∧ argField row.mask = 0#8 := by
  decide

theorem exists_row_of_plainOp : ∀ op ∈ plainOps, ∃ row ∈ opcodeTable, opField row.pattern = op := by
  decide

theorem row_eq_of_opField_eq : ∀ p ∈ opcodeTable, ∀ q ∈ opcodeTable,
    opField p.pattern = opField q.pattern → p = q := by
  decide

theorem selectedBy_iff {row : OpcodeRow} (hrow : row ∈ opcodeTable) {w : BitVec 16} :
    row.selectedBy w = true ↔ opField w = opField row.pattern ∧ (argField row.mask = 0#8 ∨ argField w = 0#8) := by
  obtain ⟨hop, hp, hm⟩ := row_fields row hrow
  rw [OpcodeRow.selectedBy, beq_iff_eq, word_eq_iff, opField_and, argField_and, hop, hp, BitVec.and_allOnes]
  rcases hm with ⟨-, hm⟩ | ⟨-, hm⟩
  · simp only [hm, BitVec.and_zero, true_or]
  · simp only [hm, BitVec.and_allOnes, show BitVec.allOnes 8 ≠ 0#8 by decide, false_or]

/-- Settles O4: a selected row has the word's `OP`, and no two rows have the same. -/
theorem opcodeRowsDoNotOverlap : Obligations.OpcodeRowsDoNotOverlap := by
  intro w p hp q hq hselp hselq
  have hpop := ((selectedBy_iff hp).mp hselp).1
  have hqop := ((selectedBy_iff hq).mp hselq).1
  exact row_eq_of_opField_eq p hp q hq (hpop.symm.trans hqop)

theorem exists_row_iff {w : BitVec 16} : (∃ row ∈ opcodeTable, row.selectedBy w = true) ↔
    opField w ∈ argOps ∨ opField w ∈ plainOps ∧ argField w = 0#8 := by
  constructor
  · rintro ⟨row, hrow, hsel⟩
    obtain ⟨hop, harg⟩ := (selectedBy_iff hrow).mp hsel
    obtain ⟨-, -, ⟨hmem, -⟩ | ⟨hmem, hm⟩⟩ := row_fields row hrow
    · exact .inl (hop ▸ hmem)
    · exact .inr ⟨hop ▸ hmem, harg.resolve_left (by rw [hm]; decide)⟩
  · rintro (hop | ⟨hop, harg⟩)
    · obtain ⟨row, hrow, hp, hm⟩ := exists_row_of_argOp _ hop
      exact ⟨row, hrow, (selectedBy_iff hrow).mpr ⟨hp.symm, .inl hm⟩⟩
    · obtain ⟨row, hrow, hp⟩ := exists_row_of_plainOp _ hop
      exact ⟨row, hrow, (selectedBy_iff hrow).mpr ⟨hp.symm, .inr harg⟩⟩

/-- The two kinds of reserved word (30_encoding.md R84) are what is left out on the right. -/
theorem exists_decode_iff {c : Command} : (∃ i, decode c = .ok i) ↔
    opField c.cw ∈ argOps ∨ opField c.cw ∈ plainOps ∧ argField c.cw = 0#8 := by
  simp only [decode]
  split
  case h_16 => simp_all [argOps, plainOps]
  all_goals simp [argOps, plainOps, requireZeroArg_eq_ok, *]

namespace Machine

theorem stepCommand_of_error {c : Command} (h : ∀ i, decode c ≠ .ok i) (s : State) :
    stepCommand c s = .next (s.answered (errResponse 0x05#8 c.cw)) := by
  unfold stepCommand
  split
  next i hdec => exact absurd hdec (h i)
  next => exact raiseError_eq s (.illegal c.cw)

/-- Settles O3: the table and the decoder know the same words. -/
theorem unmatchedWordIsRefused : Obligations.UnmatchedWordIsRefused := by
  intro c s rest hin
  refine ⟨fun hno => ?_, fun hrow => exists_decode_iff.mpr (exists_row_iff.mp hrow)⟩
  rw [step_of_command hin]
  refine stepCommand_of_error (fun i hdec => ?_) _
  obtain ⟨row, hrow, hsel⟩ := exists_row_iff.mpr (exists_decode_iff.mp ⟨i, hdec⟩)
  rw [hno row hrow] at hsel
  cases hsel

/-! ### No command stops in a state that satisfies the invariants (30_encoding.md R80)

Each shared operation completes when what it goes on with does, so each command does. -/

/-- The result is a next state. -/
def Completes (o : Result) : Prop := ∃ t, o = .next t

theorem raiseError_completes (e : CommandError) (s : State) : Completes (raiseError e s) := ⟨_, rfl⟩

theorem respondOk_completes (data : List Byte) (s : State) : Completes (respondOk data s) := ⟨_, rfl⟩

theorem execLdkey_completes (k : Nat) (din : BitVec 256) (s : State) : Completes (execLdkey k din s) := by
  unfold execLdkey
  split
  next => exact raiseError_completes _ s
  next => exact respondOk_completes _ _

theorem execLdst_completes (b : Nat) (din : BitVec 256) (s : State) : Completes (execLdst b din s) := by
  unfold execLdst
  split
  next => exact raiseError_completes _ s
  next => exact respondOk_completes _ _

section
variable {s : State} (hi : s.Inv)
include hi

theorem withKey_completes {go : Size → List Byte → Result} (hgo : ∀ k, Completes (go k s.key)) :
    Completes (withKey s go) := by
  rcases legalLen_iff.mp hi.klenLegal with h0 | ⟨k, hk⟩
  · exact ⟨_, withKey_none h0 go⟩
  · rw [withKey_of_inv hi hk]; exact hgo k

theorem withBlock_completes {go : List Byte → Result} (hgo : Completes (go s.st)) : Completes (withBlock s go) := by
  by_cases h0 : s.slen = 0#8
  · exact ⟨_, withBlock_none h0 go⟩
  · rw [withBlock_of_inv hi h0]; exact hgo

theorem exists_schedule_of_inv (h0 : s.ksb ≠ 0#8) : ∃ b k : Size, s.ksb = b.toReg ∧ s.klen = k.toReg := by
  obtain ⟨b, hb⟩ := (legalLen_iff.mp hi.ksbLegal).resolve_left h0
  obtain ⟨k, hk⟩ := klen_of_inv hi hb
  exact ⟨b, k, hb, hk⟩

theorem withRoundKey_completes {r : Nat} (h0 : s.ksb ≠ 0#8) {go : List Byte → Result}
    (hgo : ∀ rk : List Byte, rk.length = s.ksb.toNat → Completes (go rk)) : Completes (withRoundKey r s go) := by
  obtain ⟨b, k, hb, hk⟩ := exists_schedule_of_inv hi h0
  rcases Nat.lt_or_ge (roundCount b k) r with hr | hr
  · exact ⟨_, withRoundKey_range hb hk hr go⟩
  · rw [withRoundKey_of_inv hi hb hk hr]
    exact hgo _ (by rw [roundKey_length (schedule_of_inv hi hb hk).2 hr, hb, size_toReg_toNat])

theorem transformBlock_completes {f : List Byte → List Byte} (hf : (f s.st).length = s.st.length) :
    Completes (transformBlock f s) :=
  withBlock_completes hi ⟨_, storeBlock_of_length hf⟩

theorem transformSized_completes {f : Size → List Byte → List Byte} (hf : ∀ b, (f b s.st).length = b.bytes) :
    Completes (transformSized f s) := by
  rcases legalLen_iff.mp hi.slenLegal with h0 | ⟨b, hb⟩
  · exact ⟨_, withBlock_none h0 _⟩
  · exact ⟨_, transformSized_of_inv hi hb (hf b)⟩

theorem cipherCommand_completes (f : Size → Size → List Byte → List Byte → List Byte) (n : Nat)
    (din : BitVec 256) : Completes (cipherCommand f n din s) := by
  unfold cipherCommand
  split
  next => exact raiseError_completes _ s
  next => exact withKey_completes hi fun _ => respondOk_completes _ _

theorem execExpand_completes (n : Nat) : Completes (execExpand n s) := by
  unfold execExpand
  split
  next => exact raiseError_completes _ s
  next => exact withKey_completes hi fun _ => respondOk_completes _ _

theorem execRdrk_completes (r : Nat) : Completes (execRdrk r s) := by
  unfold execRdrk
  split
  next => exact raiseError_completes _ s
  next h0 => exact withRoundKey_completes hi h0 fun rk _ => respondOk_completes rk s

theorem execStat_completes : Completes (execStat s) := by
  unfold execStat
  split
  next => exact respondOk_completes _ s
  next h0 =>
    obtain ⟨b, k, hb, hk⟩ := exists_schedule_of_inv hi h0
    rw [hb, hk, roundCount?_toReg]
    exact respondOk_completes _ s

/-- Here the round key is as long as the block because the command demands `SLEN = KSB`. -/
theorem execAddrk_completes (r : Nat) : Completes (execAddrk r s) := by
  unfold execAddrk
  split
  next => exact raiseError_completes _ s
  next h =>
    obtain ⟨-, h0, hlen⟩ : s.slen ≠ 0#8 ∧ s.ksb ≠ 0#8 ∧ s.slen = s.ksb := by simpa using h
    refine withRoundKey_completes hi h0 fun rk hrk => transformBlock_completes hi ?_
    rw [xorBytes_length, hrk, ← hlen, hi.stLength, Nat.min_self]

theorem exec_completes (i : Instr) : Completes (exec i s) := by
  cases i with
  | ldkey k d => exact execLdkey_completes k d s
  | expand b => exact execExpand_completes hi b
  | rdrk r => exact execRdrk_completes hi r
  | stat => exact execStat_completes hi
  | ldst b d => exact execLdst_completes b d s
  | rdst => exact withBlock_completes hi (respondOk_completes s.st s)
  | addrk r => exact execAddrk_completes hi r
  | subb => exact transformBlock_completes hi (subBytes_length s.st)
  | shrow => exact transformSized_completes hi fun b => shiftRows_length b s.st
  | mixc => exact transformBlock_completes hi (mixColumns_length s.st)
  | enc b d => exact cipherCommand_completes hi encrypt b d
  | isubb => exact transformBlock_completes hi (invSubBytes_length s.st)
  | ishrow => exact transformSized_completes hi fun b => invShiftRows_length b s.st
  | imixc => exact transformBlock_completes hi (invMixColumns_length s.st)
  | dec b d => exact cipherCommand_completes hi decrypt b d

theorem stepCommand_answers (c : Command) :
    ∃ t r, stepCommand c s = .next t ∧ t.inbox = s.inbox ∧ t.outbox = s.outbox ++ [r] := by
  unfold stepCommand
  split
  next i _ =>
    obtain ⟨t, ht⟩ := exec_completes hi i
    obtain ⟨-, r, -, -, hout, -, hin, -⟩ := responseDependsOnRegistersOnly i s s t rfl ht
    exact ⟨t, r, ht, hin, hout⟩
  next => exact ⟨_, _, raiseError_eq s (.illegal c.cw), rfl, rfl⟩

end

/-- Settles O48, for each kind of event at the head of the host's list. -/
theorem everyEventIsAnswered : Obligations.EveryEventIsAnswered := by
  intro s hi
  match hin : s.inbox with
  | [] => exact ⟨s, by simp only [step, fetch, hin], hin, rfl⟩
  | .reset _ :: rest => exact ⟨resetRegs { s with inbox := rest }, by simp only [step, fetch, hin], rfl, rfl⟩
  | .command c :: rest =>
    obtain ⟨t, r, ht, htin, hout⟩ := stepCommand_answers (s := { s with inbox := rest }) hi c
    exact ⟨t, (step_of_command hin).trans ht, htin, r, hout⟩

/-! ### What a response carries (30_encoding.md R83, R87) -/

/-- The column "returns data" of 30_encoding.md R83: how many bytes the command returns when it succeeds. -/
def returnedBytes (s : Regs) : Instr → Nat
  | .rdrk _ => s.ksb.toNat
  | .stat => 4
  | .rdst => s.slen.toNat
  | .enc b _ => b
  | .dec b _ => b
  | _ => 0

theorem returnedBytes_of_transform {i : Instr} (h : plainTransform i = true ∨ ∃ r, i = .addrk r) (s : Regs) :
    returnedBytes s i = 0 := by
  rcases h with h | ⟨r, rfl⟩
  · cases i <;> simp_all [plainTransform, returnedBytes]
  · rfl

/-- A command that succeeds returns as many bytes as the table says; one that fails returns none. -/
theorem ExecCase.response {i : Instr} {s t : State} (h : ExecCase i s t) (hi : s.Inv) :
    (∃ status info, status ≠ 0x00#8 ∧ t.outbox = s.outbox ++ [errResponse status info]) ∨
    ∃ data : List Byte, data.length = returnedBytes s.toRegs i ∧ t.outbox = s.outbox ++ [okResponse data] := by
  cases h with
  | keySize | blockSize | seq | range => exact .inl ⟨_, _, by decide, rfl⟩
  | loadKey k d hins | loadBlock b d hins | expand b k key hins => exact .inr ⟨[], by rw [hins]; rfl, rfl⟩
  | transform blk hins => exact .inr ⟨[], (returnedBytes_of_transform hins s.toRegs).symm, rfl⟩
  | read data hd =>
    refine .inr ⟨data, ?_, rfl⟩
    rcases hd with ⟨r, rfl, hl⟩ | ⟨rfl, hl⟩ | ⟨rfl, hl⟩ <;> exact hl
  | cipher b k key d f hf hk hm =>
    obtain rfl := memRead_key_of_inv hi hk hm
    refine .inr ⟨_, ?_, rfl⟩
    rcases hf with ⟨rfl, rfl⟩ | ⟨rfl, rfl⟩
    · exact encrypt_length b k (key_length_of_inv hi hk) _
    · exact decrypt_length b k (key_length_of_inv hi hk) _

/-- The response to a command: an error, or the bytes of the instruction that it selects. -/
theorem response_cases {s t : State} {c : Command} {rest : List HostEvent} {r : Response} (hi : s.Inv)
    (hin : s.inbox = .command c :: rest) (hstep : step s = .next t) (hout : t.outbox = s.outbox ++ [r]) :
    (∃ status info, status ≠ 0x00#8 ∧ r = errResponse status info) ∨
    ∃ i data, c.Selects i ∧ data.length = returnedBytes s.toRegs i ∧ r = okResponse data := by
  have same {x : Response} (hx : t.outbox = s.outbox ++ [x]) : r = x := by
    simpa using hout.symm.trans hx
  rw [step_of_command hin] at hstep
  unfold stepCommand at hstep
  split at hstep
  next i hdec =>
    rcases (exec_cases hstep).response hi with ⟨status, info, hne, hx⟩ | ⟨data, hl, hx⟩
    · exact .inl ⟨status, info, hne, same hx⟩
    · exact .inr ⟨i, data, selects_of_decode hdec, hl, same hx⟩
  next =>
    rw [raiseError_eq] at hstep
    cases hstep
    exact .inl ⟨0x05#8, c.cw, by decide, same rfl⟩

section
variable {c : Command} {i : Instr} (h : c.Selects i) (s : Regs)
include h

theorem returnedBytes_lt : returnedBytes s i < 2 ^ 8 := by
  cases i with
  | rdrk r => exact s.ksb.isLt
  | rdst => exact s.slen.isLt
  | enc b d | dec b d => exact lt_of_eq_of_lt h.arg.symm (argField c.cw).isLt
  | _ => simp [returnedBytes]

theorem ofNat_returnedBytes : BitVec.ofNat 8 (returnedBytes s i) =
    if opField c.cw = 0x12#8 then s.ksb
    else if opField c.cw = 0x13#8 then 4#8
    else if opField c.cw = 0x21#8 then s.slen
    else if opField c.cw = 0x2F#8 ∨ opField c.cw = 0x3F#8 then argField c.cw
    else 0#8 := by
  rw [h.op]
  cases i with
  | enc b d | dec b d =>
    have hb : (argField c.cw).toNat = b := h.arg
    simp [returnedBytes, opcode, ← hb]
  | _ => simp [returnedBytes, opcode]

end

/-- Above the bytes it carries a response is zero. -/
theorem busByte_okResponse {data : List Byte} (hl : data.length < 2 ^ 8) {i : Nat} (hi : i < Config.busBytes)
    (hlen : (okResponse data).len.toNat ≤ i) : busByte (okResponse data).dout i = 0#8 := by
  have hle : data.length ≤ i := by
    simpa only [okResponse, BitVec.toNat_ofNat, Nat.mod_eq_of_lt hl] using hlen
  rw [okResponse, busByte_busOf data hi, List.getElem?_eq_none hle]
  rfl

/-- Settles O52: an error carries nothing, and a success the bytes that `LEN` counts. -/
theorem responseLengthAndPadding : Obligations.ResponseLengthAndPadding := by
  intro s t c rest r hi hin hstep hout
  rcases response_cases hi hin hstep hout with ⟨status, info, hne, rfl⟩ | ⟨i, data, hsel, hl, rfl⟩
  · exact ⟨(if_pos hne).symm, fun j _ _ => busByte_zero j⟩
  · refine ⟨?_, fun j hj hlen => busByte_okResponse (hl ▸ returnedBytes_lt hsel s.toRegs) hj hlen⟩
    rw [if_neg (by simp [okResponse]), ← ofNat_returnedBytes hsel s.toRegs, ← hl]
    rfl

end Machine

end Sys2Proof

/-! Proofs of the family 40_tables.md: the field product (R111, R112), and the constant tables as the field
arithmetic and the offsets define them (R113 to R123). -/

namespace Sys2Proof.Machine

/-! ### Multiplication by x (40_tables.md R112) -/

theorem xtime_eq_xor (a : Byte) : xtime a = a <<< 1 ^^^ if a.getLsbD 7 then 0x1B#8 else 0#8 := by
  unfold xtime
  split <;> simp

theorem xtime_xor (a b : Byte) : xtime (a ^^^ b) = xtime a ^^^ xtime b := by
  have reduce : ∀ p q : Bool, (if p ^^ q then 0x1B#8 else 0#8) =
      (if p then 0x1B#8 else 0#8) ^^^ if q then 0x1B#8 else 0#8 := by decide
  simp only [xtime_eq_xor, BitVec.getLsbD_xor, BitVec.shiftLeft_xor_distrib, reduce]
  ac_rfl

@[simp] theorem xtimes_zero (n : Nat) : xtimes n 0#8 = 0#8 := by
  induction n with
  | zero => rfl
  | succ n ih => rw [xtimes, ih]; rfl

theorem xtimes_xor (n : Nat) (a b : Byte) : xtimes n (a ^^^ b) = xtimes n a ^^^ xtimes n b := by
  induction n with
  | zero => rfl
  | succ n ih => simp only [xtimes, ih, xtime_xor]

theorem xtimes_xtime (n : Nat) (a : Byte) : xtimes n (xtime a) = xtime (xtimes n a) := by
  induction n with
  | zero => rfl
  | succ n ih => rw [xtimes, ih, xtimes]

/-! ### The field product (40_tables.md R112)

The product is linear in each factor, and every byte is a sum of the powers `x^0 .. x^7`. So each law needs a
proof at the powers only. -/

theorem gfTerm_xor_left (a b c : Byte) (i : Nat) : gfTerm (a ^^^ b) c i = gfTerm a c i ^^^ gfTerm b c i := by
  unfold gfTerm
  split
  next => exact xtimes_xor i a b
  next => rfl

theorem gfTerm_xor_right (a b c : Byte) (i : Nat) : gfTerm a (b ^^^ c) i = gfTerm a b i ^^^ gfTerm a c i := by
  unfold gfTerm
  rw [BitVec.getLsbD_xor]
  cases b.getLsbD i <;> cases c.getLsbD i <;> simp

theorem gfTerm_xtime_left (a b : Byte) (i : Nat) : gfTerm (xtime a) b i = xtime (gfTerm a b i) := by
  unfold gfTerm
  split
  next => exact xtimes_xtime i a
  next => rfl

theorem gfMul_xor_left (a b c : Byte) : gfMul (a ^^^ b) c = gfMul a c ^^^ gfMul b c := by
  simp only [gfMul, gfTerm_xor_left]
  ac_rfl

theorem gfMul_xor_right (a b c : Byte) : gfMul a (b ^^^ c) = gfMul a b ^^^ gfMul a c := by
  simp only [gfMul, gfTerm_xor_right]
  ac_rfl

theorem gfMul_xtime_left (a b : Byte) : gfMul (xtime a) b = xtime (gfMul a b) := by
  simp only [gfMul, gfTerm_xtime_left, xtime_xor]

theorem gfMul_xtimes_left (n : Nat) (a b : Byte) : gfMul (xtimes n a) b = xtimes n (gfMul a b) := by
  induction n with
  | zero => rfl
  | succ n ih => rw [xtimes, gfMul_xtime_left, ih, xtimes]

@[simp] theorem gfMul_zero (a : Byte) : gfMul a 0#8 = 0#8 := by simp [gfMul, gfTerm]

@[simp] theorem zero_gfMul (a : Byte) : gfMul 0#8 a = 0#8 := by simp [gfMul, gfTerm]

@[simp] theorem one_gfMul (a : Byte) : gfMul 1#8 a = a := by
  revert a
  decide +kernel

/-- A property that the sum keeps holds of every byte when it holds of the powers of `x`: `1 * a` is the sum of
those that the bits of `a` select. -/
theorem byte_induction {p : Byte → Prop} (zero : p 0#8) (xor : ∀ a b, p a → p b → p (a ^^^ b))
    (power : ∀ i : Fin 8, p (xtimes i 1#8)) (a : Byte) : p a := by
  have term (i : Fin 8) : p (gfTerm 1#8 a i) := by
    unfold gfTerm
    split
    next => exact power i
    next => exact zero
  rw [← one_gfMul a]
  exact xor _ _ (xor _ _ (xor _ _ (xor _ _ (xor _ _ (xor _ _ (xor _ _ (term 0) (term 1)) (term 2)) (term 3))
    (term 4)) (term 5)) (term 6)) (term 7)

theorem gfMul_comm_powers : ∀ i j : Fin 8,
    gfMul (xtimes i 1#8) (xtimes j 1#8) = gfMul (xtimes j 1#8) (xtimes i 1#8) := by
  decide +kernel

theorem gfMul_comm (a b : Byte) : gfMul a b = gfMul b a := by
  induction a using byte_induction with
  | zero => simp
  | xor a a' h h' => rw [gfMul_xor_left, gfMul_xor_right, h, h']
  | power i =>
    induction b using byte_induction with
    | zero => simp
    | xor b b' h h' => rw [gfMul_xor_left, gfMul_xor_right, h, h']
    | power j => exact gfMul_comm_powers i j

@[simp] theorem gfMul_one (a : Byte) : gfMul a 1#8 = a := by rw [gfMul_comm, one_gfMul]

theorem gfMul_assoc (a b c : Byte) : gfMul (gfMul a b) c = gfMul a (gfMul b c) := by
  induction a using byte_induction with
  | zero => simp
  | xor a a' h h' => simp only [gfMul_xor_left, h, h']
  | power i => simp only [gfMul_xtimes_left, one_gfMul]

theorem gfMul_left_comm (a b c : Byte) : gfMul a (gfMul b c) = gfMul b (gfMul a c) := by
  rw [← gfMul_assoc, gfMul_comm a b, gfMul_assoc]

/-- Settles O29: each law from linearity and the powers of `x`. -/
theorem gfMulIsAFieldProduct : Obligations.GfMulIsAFieldProduct :=
  ⟨gfMul_comm, gfMul_assoc, gfMul_xor_right, fun a => ⟨gfMul_one a, gfMul_zero a⟩, by decide⟩

/-- A factor with an inverse can be undone. -/
theorem gfMul_gfMul_of_inverse {b c : Byte} (h : gfMul b c = 1#8) (a : Byte) : gfMul (gfMul a b) c = a := by
  rw [gfMul_assoc, h, gfMul_one]

theorem inverse_unique {a b c : Byte} (hb : gfMul a b = 1#8) (hc : gfMul a c = 1#8) : b = c :=
  calc b = gfMul (gfMul b a) c := (gfMul_gfMul_of_inverse hc b).symm
    _ = c := by rw [gfMul_comm b a, hb, one_gfMul]

/-! ### The S-boxes (40_tables.md R114 to R117) -/

theorem invSbox_sbox : ∀ x : Byte, invSbox (sbox x) = x := by decide +kernel

theorem sbox_invSbox : ∀ y : Byte, sbox (invSbox y) = y := by decide +kernel

/-- Settles O32: the two tables undo each other, entry by entry. -/
theorem invSboxInvertsSbox : Obligations.InvSboxInvertsSbox :=
  ⟨invSbox_sbox, sbox_invSbox, fun x y =>
    ⟨fun h => by rw [← h, invSbox_sbox], fun h => by rw [h, sbox_invSbox]⟩⟩

theorem sbox_bijective : Function.Bijective sbox :=
  Function.bijective_iff_has_inverse.mpr ⟨invSbox, invSbox_sbox, sbox_invSbox⟩

/-- The inverse of the affine map. -/
def affineInv (b : Byte) : Byte := b.rotateLeft 1 ^^^ b.rotateLeft 3 ^^^ b.rotateLeft 6 ^^^ 0x05#8

theorem affine_affineInv : ∀ y : Byte, affine (affineInv y) = y := by decide +kernel

/-- The byte under the affine map of an entry is the field inverse of the index. -/
theorem gfMul_affineInv_sbox : ∀ x : Byte, x ≠ 0#8 → gfMul x (affineInv (sbox x)) = 1#8 := by decide +kernel

theorem exists_inverse {x : Byte} (h : x ≠ 0#8) : ∃ y, gfMul x y = 1#8 := ⟨_, gfMul_affineInv_sbox x h⟩

theorem sbox_eq_affine_of_inverse {x y : Byte} (h : gfMul x y = 1#8) : sbox x = affine y := by
  have hx : x ≠ 0#8 := by
    rintro rfl
    rw [zero_gfMul] at h
    cases h
  rw [inverse_unique h (gfMul_affineInv_sbox x hx), affine_affineInv]

theorem sbox_no_fixed_point : ∀ x : Byte, sbox x ≠ x ∧ sbox x ≠ x ^^^ 0xFF#8 := by decide +kernel

/-- Settles O31: a byte has one inverse only, so the entry's own is the one given. -/
theorem sboxIsAffineOfInverse : Obligations.SboxIsAffineOfInverse :=
  ⟨fun _ _ => sbox_eq_affine_of_inverse, by decide, fun _ => exists_inverse, sbox_bijective, sbox_no_fixed_point⟩

/-! ### The multiplication tables (40_tables.md R113) -/

theorem mul_eq_gfMul : ∀ x : Byte, mul2 x = gfMul x 2#8 ∧ mul3 x = gfMul x 3#8 ∧ mul9 x = gfMul x 9#8 ∧
    mul11 x = gfMul x 11#8 ∧ mul13 x = gfMul x 13#8 ∧ mul14 x = gfMul x 14#8 := by
  decide +kernel

theorem exists_constant_of_table :
    ∀ f ∈ [mul2, mul3, mul9, mul11, mul13, mul14], ∃ k, k ≠ 0#8 ∧ ∀ x, f x = gfMul x k := by
  have h := mul_eq_gfMul
  simp only [forall_and] at h
  obtain ⟨h2, h3, h9, h11, h13, h14⟩ := h
  simp only [List.forall_mem_cons]
  exact ⟨⟨_, by decide, h2⟩, ⟨_, by decide, h3⟩, ⟨_, by decide, h9⟩, ⟨_, by decide, h11⟩, ⟨_, by decide, h13⟩,
    ⟨_, by decide, h14⟩, List.forall_mem_nil _⟩

/-- The product by a constant that is not zero is undone by the product by its inverse. -/
theorem gfMul_bijective {k : Byte} (hk : k ≠ 0#8) : Function.Bijective fun x => gfMul x k := by
  obtain ⟨k', hkk'⟩ := exists_inverse hk
  exact Function.bijective_iff_has_inverse.mpr ⟨fun y => gfMul y k', gfMul_gfMul_of_inverse hkk',
    gfMul_gfMul_of_inverse (gfMul_comm k k' ▸ hkk')⟩

/-- Settles O30: the entries are products, and their laws are those of the product. -/
theorem multiplicationTablesHoldProducts : Obligations.MultiplicationTablesHoldProducts := by
  refine ⟨mul_eq_gfMul, fun f hf => ?_⟩
  obtain ⟨k, hk, hprod⟩ := exists_constant_of_table f hf
  rw [funext hprod]
  exact ⟨gfMul_bijective hk, zero_gfMul k⟩

/-! ### The MixColumns matrices (40_tables.md R122) -/

/-- A matrix by its rows, as words. -/
abbrev Rows := Fin 4 → Word

/-- The matrix times a column. -/
def Rows.times (m : Rows) (a : Word) : Word :=
  ⟨gfDot (m 0).toList a.toList, gfDot (m 1).toList a.toList, gfDot (m 2).toList a.toList, gfDot (m 3).toList a.toList⟩

/-- The matrix whose rows are the columns of `m`. -/
def Rows.transpose (m : Rows) : Rows :=
  ![⟨(m 0).b0, (m 1).b0, (m 2).b0, (m 3).b0⟩, ⟨(m 0).b1, (m 1).b1, (m 2).b1, (m 3).b1⟩,
    ⟨(m 0).b2, (m 1).b2, (m 2).b2, (m 3).b2⟩, ⟨(m 0).b3, (m 1).b3, (m 2).b3, (m 3).b3⟩]

/-- `M` (`mixMatrix`). -/
def mixRows : Rows :=
  ![⟨2#8, 3#8, 1#8, 1#8⟩, ⟨1#8, 2#8, 3#8, 1#8⟩, ⟨1#8, 1#8, 2#8, 3#8⟩, ⟨3#8, 1#8, 1#8, 2#8⟩]

/-- `M_inv` (`invMixMatrix`). -/
def invMixRows : Rows :=
  ![⟨14#8, 11#8, 13#8, 9#8⟩, ⟨9#8, 14#8, 11#8, 13#8⟩, ⟨13#8, 9#8, 14#8, 11#8⟩, ⟨11#8, 13#8, 9#8, 14#8⟩]

/-- The identity. -/
def unitRows : Rows :=
  ![⟨1#8, 0#8, 0#8, 0#8⟩, ⟨0#8, 1#8, 0#8, 0#8⟩, ⟨0#8, 0#8, 1#8, 0#8⟩, ⟨0#8, 0#8, 0#8, 1#8⟩]

theorem gfDot_toList (v w : Word) : gfDot v.toList w.toList =
    gfMul v.b0 w.b0 ^^^ gfMul v.b1 w.b1 ^^^ gfMul v.b2 w.b2 ^^^ gfMul v.b3 w.b3 := by
  simp [gfDot, Word.toList]

theorem mixColumn_eq_times (a : Word) : mixColumn a = mixRows.times a := by
  simp [mixColumn, Rows.times, gfDot_toList, mixRows, mul_eq_gfMul, gfMul_comm]

theorem invMixColumn_eq_times (a : Word) : invMixColumn a = invMixRows.times a := by
  simp [invMixColumn, Rows.times, gfDot_toList, invMixRows, mul_eq_gfMul, gfMul_comm]

theorem unitRows_times (a : Word) : unitRows.times a = a := by
  simp [Rows.times, gfDot_toList, unitRows]

/-- A row times a product with a matrix: first the row times each column of the matrix. -/
theorem gfDot_times (v : Word) (m : Rows) (a : Word) :
    gfDot v.toList (m.times a).toList = gfDot (m.transpose.times v).toList a.toList := by
  simp only [gfDot_toList, Rows.times, Rows.transpose, Matrix.cons_val, gfMul_xor_right, gfMul_comm, gfMul_left_comm]
  ac_rfl

/-- Two matrices one after the other do what their product does. -/
theorem times_times_of_product {m n p : Rows} (h : ∀ i, n.transpose.times (m i) = p i) (a : Word) :
    m.times (n.times a) = p.times a := by
  rw [Rows.times]
  simp only [gfDot_times, h]
  rfl

/-- Settles O35: `M` and `M_inv` multiply to the identity. -/
theorem mixColumnIsMatrixProduct : Obligations.MixColumnIsMatrixProduct := by
  refine ⟨fun a => ?_, fun a => ?_, fun a => ?_⟩
  · rw [mixColumn_eq_times]; rfl
  · rw [invMixColumn_eq_times]; rfl
  · have hinv : ∀ i, mixRows.transpose.times (invMixRows i) = unitRows i := by decide
    have hmix : ∀ i, invMixRows.transpose.times (mixRows i) = unitRows i := by decide
    simp only [mixColumn_eq_times, invMixColumn_eq_times, times_times_of_product hinv, times_times_of_product hmix,
      unitRows_times, and_self]

/-! ### Round constants (40_tables.md R118) -/

/-- Settles O33: the recursion gives the printed bytes. -/
theorem roundConstantValues : Obligations.RoundConstantValues := by
  unfold Obligations.RoundConstantValues
  decide

/-! ### Row shifts (40_tables.md R119 to R121) -/

theorem rowOffset_lt (b : Size) (r : Fin 4) : rowOffset b r < b.columns := by
  revert r
  cases b <;> decide

theorem rowShift_getElem? (b : Size) : ∀ (r : Fin 4), ∀ c < b.columns,
    (rowShift b)[r.val + 4 * c]? = some (r.val + 4 * ((c + rowOffset b r) % b.columns)) := by
  cases b <;> decide

theorem invRowShift_getElem? (b : Size) : ∀ (r : Fin 4), ∀ c < b.columns,
    (invRowShift b)[r.val + 4 * c]? = some (r.val + 4 * ((c + b.columns - rowOffset b r) % b.columns)) := by
  cases b <;> decide

/-- A rotation by `k` of `n` columns, undone. -/
theorem mod_add_sub_mod {n k c : Nat} (hk : k < n) (hc : c < n) : ((c + k) % n + n - k) % n = c := by
  rcases Nat.lt_or_ge (c + k) n with h | h
  · rw [Nat.mod_eq_of_lt h, show c + k + n - k = c + n by omega, Nat.add_mod_right, Nat.mod_eq_of_lt hc]
  · rw [Nat.mod_eq_sub_mod h, Nat.mod_eq_of_lt (show c + k - n < n by omega),
      show c + k - n + n - k = c by omega, Nat.mod_eq_of_lt hc]

/-- Settles O34: the tables rotate each row, one way and back. -/
theorem rowShiftTablesFollowOffsets : Obligations.RowShiftTablesFollowOffsets := by
  intro b r c hc
  have hrot := rowShift_getElem? b r c hc
  have hlt : (c + rowOffset b r) % b.columns < b.columns := Nat.mod_lt _ (by omega)
  refine ⟨rowShift_length b, invRowShift_length b, hrot, invRowShift_getElem? b r c hc, ?_⟩
  rw [List.getD_eq_getElem?_getD, hrot, Option.getD_some, invRowShift_getElem? b r _ hlt,
    mod_add_sub_mod (rowOffset_lt b r) hc]

/-! ### Round counts (40_tables.md R123) -/

theorem size_bytes_mem (b : Size) : b.bytes ∈ [16, 24, 32] := by cases b <;> decide

theorem roundCount_eq_ite (b k : Size) : roundCount b k =
    if max b.bytes k.bytes = 16 then 10 else if max b.bytes k.bytes = 24 then 12 else 14 := by
  cases b <;> cases k <;> rfl

theorem roundCount_eq_div (b k : Size) : roundCount b k = max b.bytes k.bytes / 4 + 6 := by
  cases b <;> cases k <;> rfl

theorem roundCount?_eq_none {b k : BitVec 8} (h : b.toNat ∉ [16, 24, 32] ∨ k.toNat ∉ [16, 24, 32]) :
    roundCount? b k = none := by
  refine Option.eq_none_iff_forall_ne_some.mpr fun nr hnr => ?_
  obtain ⟨b', k', rfl, rfl, -⟩ := roundCount?_eq_some.mp hnr
  rw [size_toReg_toNat, size_toReg_toNat] at h
  exact h.elim (· (size_bytes_mem b')) (· (size_bytes_mem k'))

/-- Settles O36: the table at the nine pairs, and at no other. -/
theorem roundCountByLargerLength : Obligations.RoundCountByLargerLength :=
  ⟨fun b k => ⟨roundCount_eq_ite b k, roundCount_eq_div b k, roundCount?_toReg b k⟩,
    fun _ _ => roundCount?_eq_none, by decide⟩

end Sys2Proof.Machine

/-! Proofs of the family 41_key_schedule.md: key expansion (R141, R145, R146) and the commands on the key and its
schedule: LDKEY (R140), EXPAND (R142), RDRK (R143), STAT (R144). -/

namespace Sys2Proof.Machine

/-! ### The round-constant index (41_key_schedule.md R141, R146) -/

theorem size_bytes_pos (k : Size) : 0 < k.bytes := by cases k <;> decide

theorem size_bytes_mod_four (k : Size) : k.bytes % 4 = 0 := by cases k <;> rfl

/-- The round-constant index when the expansion reaches byte index `i`: how many of the indices `k, 2k, ...` come
before `i`. `expandLoop_rconIndex` ties it to the loop. -/
def rconIndex (k : Size) (i : Nat) : Nat := (i - 1) / k.bytes

theorem rconIndex_bytes (k : Size) : rconIndex k k.bytes = 0 := by cases k <;> rfl

/-- One word further the index has grown exactly if the word began a segment. -/
theorem rconIndex_add_four (k : Size) {i : Nat} (hi : 0 < i) (h4 : i % 4 = 0) :
    (if i % k.bytes = 0 then rconIndex k i + 1 else rconIndex k i) = rconIndex k (i + 4) := by
  unfold rconIndex
  split
  all_goals
    rename_i h
    cases k <;> simp only [Size.bytes] at h ⊢ <;> omega

/-- At the start of a segment. -/
theorem rconIndex_of_segment (k : Size) {i : Nat} (hi : 0 < i) (h : i % k.bytes = 0) :
    rconIndex k i = i / k.bytes - 1 := by
  unfold rconIndex
  cases k <;> simp only [Size.bytes] at h ⊢ <;> omega

/-- The word that the loop appends at byte index `i` with round-constant index `j`. -/
def nextWord (k : Size) (i j : Nat) (w : List Byte) : Word :=
  (wordAt w (i - k.bytes)).xor (expandTemp k i j (wordAt w (i - 4)))

/-- One step of the loop, which keeps the round-constant index in closed form. -/
theorem expandLoop_succ (k : Size) (n : Nat) {i : Nat} (w : List Byte) (hi : 0 < i) (h4 : i % 4 = 0) :
    expandLoop k (n + 1) i (rconIndex k i) w =
      expandLoop k n (i + 4) (rconIndex k (i + 4)) (w ++ (nextWord k i (rconIndex k i) w).toList) := by
  rw [expandLoop, rconIndex_add_four k hi h4]
  rfl

/-- The index that the loop reaches, whatever the schedule. -/
theorem expandLoop_rconIndex (k : Size) (n : Nat) {i : Nat} (w : List Byte) (hi : 0 < i) (h4 : i % 4 = 0) :
    (expandLoop k n i (rconIndex k i) w).2 = rconIndex k (i + 4 * n) := by
  induction n generalizing i w with
  | zero => rfl
  | succ n ih =>
    rw [expandLoop_succ k n w hi h4, ih _ (by omega) (by omega), show i + 4 + 4 * n = i + 4 * (n + 1) by omega]

theorem rconUsed_eq (b k : Size) (key : List Byte) : rconUsed b k key = rconIndex k (scheduleBytes b k) := by
  have h := expandLoop_rconIndex k ((scheduleBytes b k - k.bytes) / 4) key (size_bytes_pos k) (size_bytes_mod_four k)
  rwa [rconIndex_bytes, scheduleBytes_split] at h

theorem rconIndex_schedule_le (b k : Size) : rconIndex k (scheduleBytes b k) ≤ Config.rconEntries := by
  cases b <;> cases k <;> decide

/-- Settles O26: the closed form at the nine schedule lengths. -/
theorem roundConstantsUsedPerPair : Obligations.RoundConstantsUsedPerPair := by
  intro key
  simp only [rconUsed_eq]
  exact ⟨rfl, rfl, rfl, rfl, rfl, rfl, rfl, rfl, rfl, rconIndex_schedule_le⟩

/-! ### Words of a schedule that grows -/

theorem byteAt_append_left {l : List Byte} (v : List Byte) {i : Nat} (h : i < l.length) :
    byteAt (l ++ v) i = byteAt l i := List.getD_append l v 0#8 i h

theorem byteAt_append_right (l v : List Byte) (n : Nat) : byteAt (l ++ v) (l.length + n) = byteAt v n := by
  rw [byteAt, List.getD_append_right _ _ _ _ (Nat.le_add_right _ _), Nat.add_sub_cancel_left, byteAt]

theorem wordAt_append_left {l : List Byte} (v : List Byte) {i : Nat} (h : i + 4 ≤ l.length) :
    wordAt (l ++ v) i = wordAt l i := by
  unfold wordAt
  congr 1 <;> exact byteAt_append_left v (by omega)

theorem wordAt_append_word (l : List Byte) (x : Word) : wordAt (l ++ x.toList) l.length = x := by
  have h : ∀ n, byteAt (l ++ x.toList) (l.length + n) = byteAt x.toList n := byteAt_append_right l x.toList
  rw [wordAt, h 1, h 2, h 3, show byteAt (l ++ x.toList) l.length = byteAt x.toList 0 from h 0]
  rfl

/-- The next word depends on earlier words only. -/
theorem nextWord_append_left {k : Size} {w : List Byte} (hk : k.bytes ≤ w.length) (v : List Byte) (j : Nat) :
    nextWord k w.length j (w ++ v) = nextWord k w.length j w := by
  have h4 : 4 ≤ k.bytes := by cases k <;> decide
  rw [nextWord, wordAt_append_left v (by omega), wordAt_append_left v (by omega), nextWord]

/-! ### The recurrence (41_key_schedule.md R141) -/

/-- The word at byte index `i` is the next word after those before it, with the round-constant index as
`Obligations.ExpandKeyWordByWord` writes it. -/
def FollowsRecurrence (k : Size) (w : List Byte) (i : Nat) : Prop :=
  wordAt w i = nextWord k i (i / k.bytes - 1) w

/-- The round-constant index matters only where a segment starts. -/
theorem nextWord_rconIndex (k : Size) {i : Nat} (hi : 0 < i) (w : List Byte) :
    nextWord k i (rconIndex k i) w = nextWord k i (i / k.bytes - 1) w := by
  unfold nextWord expandTemp
  split
  next h => rw [rconIndex_of_segment k hi h]
  next => rfl

/-- A word that the loop has appended obeys the recurrence, whatever is appended after it. -/
theorem followsRecurrence_append {k : Size} {w : List Byte} (hk : k.bytes ≤ w.length) (rest : List Byte) :
    FollowsRecurrence k (w ++ (nextWord k w.length (rconIndex k w.length) w).toList ++ rest) w.length := by
  have hpos := size_bytes_pos k
  rw [FollowsRecurrence, wordAt_append_left rest (by simp), wordAt_append_word, List.append_assoc,
    nextWord_append_left hk, nextWord_rconIndex k (by omega)]

/-- Every word that the loop generates obeys the recurrence in the final schedule. -/
theorem expandLoop_followsRecurrence (k : Size) (n : Nat) {w : List Byte} (hk : k.bytes ≤ w.length)
    (h4 : w.length % 4 = 0) {i : Nat} (hi : w.length ≤ i) (hlt : i < w.length + 4 * n) (hi4 : i % 4 = 0) :
    FollowsRecurrence k (expandLoop k n w.length (rconIndex k w.length) w).1 i := by
  induction n generalizing w with
  | zero => omega
  | succ n ih =>
    have hpos := size_bytes_pos k
    rw [expandLoop_succ k n w (by omega) h4]
    have hlen (x : Word) : (w ++ x.toList).length = w.length + 4 := by simp
    rcases Nat.eq_or_lt_of_le hi with rfl | hi
    · obtain ⟨rest, hrest⟩ := expandLoop_append k n (w.length + 4) (rconIndex k (w.length + 4))
        (w ++ (nextWord k w.length (rconIndex k w.length) w).toList)
      rw [hrest]
      exact followsRecurrence_append hk rest
    · rw [← hlen]
      exact ih (by rw [hlen]; omega) (by rw [hlen]; omega) (by rw [hlen]; omega) (by rw [hlen]; omega)

theorem expandKey_followsRecurrence (b k : Size) {key : List Byte} (h : key.length = k.bytes) {i : Nat}
    (hi : k.bytes ≤ i) (hlt : i < scheduleBytes b k) (hi4 : i % 4 = 0) :
    FollowsRecurrence k (expandKey b k key) i := by
  have hloop := expandLoop_followsRecurrence k ((scheduleBytes b k - k.bytes) / 4) h.ge
    (by rw [h]; exact size_bytes_mod_four k) (h ▸ hi) (by rwa [h, scheduleBytes_split]) hi4
  rwa [h, rconIndex_bytes] at hloop

/-- Settles O24: the loop's words obey the recurrence, and it only appends to the key. -/
theorem expandKeyWordByWord : Obligations.ExpandKeyWordByWord := by
  intro b k key h
  have hlen := expandKey_length b k h
  exact ⟨hlen, expandKey_take_key b k h, fun i hi hlt hi4 => expandKey_followsRecurrence b k h hi (hlen ▸ hlt) hi4⟩

/-! ### Schedules of one key (41_key_schedule.md R145) -/

/-- A longer loop continues a shorter one from the same start. -/
theorem expandLoop_add (k : Size) (m n i j : Nat) (w : List Byte) :
    ∃ new, (expandLoop k (m + n) i j w).1 = (expandLoop k m i j w).1 ++ new := by
  induction m generalizing i j w with
  | zero => rw [Nat.zero_add]; exact expandLoop_append k n i j w
  | succ m ih => rw [Nat.succ_add]; exact ih _ _ _

theorem expandKey_append {b1 b2 k : Size} (h : scheduleBytes b1 k ≤ scheduleBytes b2 k) (key : List Byte) :
    ∃ new, expandKey b2 k key = expandKey b1 k key ++ new := by
  have hsteps : (scheduleBytes b1 k - k.bytes) / 4 ≤ (scheduleBytes b2 k - k.bytes) / 4 := by omega
  obtain ⟨n, hn⟩ := Nat.exists_eq_add_of_le hsteps
  rw [expandKey, expandRun, hn]
  exact expandLoop_add k _ n k.bytes 0 key

/-- Settles O25: both schedules are the same loop, run for fewer and for more words. -/
theorem shorterScheduleIsPrefixOfLonger : Obligations.ShorterScheduleIsPrefixOfLonger := by
  intro b1 b2 k key hkey hle
  obtain ⟨new, hnew⟩ := expandKey_append hle key
  rw [hnew, List.take_left' (expandKey_length b1 k hkey)]

/-! ### LDKEY (41_key_schedule.md R140) -/

theorem execLdkey_bytes (k : Size) (din : BitVec 256) (s : State) :
    execLdkey k.bytes din s = .next (State.answered
      { s with key := busTake din k.bytes, klen := k.toReg, ks := [], ksb := 0#8 } (okResponse [])) := by
  rw [execLdkey, size_ofNat?_bytes]
  rfl

theorem execLdkey_keySize {k : Nat} (hk : k ∉ [16, 24, 32]) (din : BitVec 256) (s : State) :
    execLdkey k din s = .next (s.answered (errResponse 0x01#8 (BitVec.ofNat 16 (8 * k)))) := by
  rw [execLdkey, size_ofNat?_eq_none.mpr hk]
  rfl

/-- Settles O9: the size check passes or fails. -/
theorem ldkeyLoadsKeyAndDropsSchedule : Obligations.LdkeyLoadsKeyAndDropsSchedule := fun din s =>
  ⟨fun k => execLdkey_bytes k din s, fun _ hk => execLdkey_keySize hk din s⟩

/-! ### EXPAND (41_key_schedule.md R142) -/

theorem execExpand_bytes (b : Size) (s : State) :
    execExpand b.bytes s = withKey s fun k key => respondOk [] (holdSchedule b k key s) := by
  rw [execExpand, size_ofNat?_bytes]

theorem execExpand_blockSize {b : Nat} (hb : b ∉ [16, 24, 32]) (s : State) :
    execExpand b s = .next (s.answered (errResponse 0x02#8 (BitVec.ofNat 16 (8 * b)))) := by
  rw [execExpand, size_ofNat?_eq_none.mpr hb]
  rfl

theorem execExpand_none (b : Size) {s : State} (h0 : s.klen = 0#8) :
    execExpand b.bytes s = .next (s.answered (errResponse 0x03#8 0#16)) := by
  rw [execExpand_bytes, withKey_none h0]

theorem execExpand_of_inv {s : State} (hi : s.Inv) (b : Size) {k : Size} (hk : s.klen = k.toReg) :
    execExpand b.bytes s = .next ((holdSchedule b k s.key s).answered (okResponse [])) := by
  rw [execExpand_bytes, withKey_of_inv hi hk, respondOk_eq]

/-- Settles O10: the size check comes before the key check, and the invariants give the key's bytes. -/
theorem expandHoldsSchedule : Obligations.ExpandHoldsSchedule := fun s =>
  ⟨fun hi b _ hk => execExpand_of_inv hi b hk, fun _ hb => execExpand_blockSize hb s, fun b h0 => execExpand_none b h0⟩

/-- The schedule that is held already. -/
theorem holdSchedule_eq_self {s : State} (hi : s.Inv) {b k : Size} (hb : s.ksb = b.toReg) (hk : s.klen = k.toReg) :
    holdSchedule b k s.key s = s := by
  rw [holdSchedule, ← (schedule_of_inv hi hb hk).1, ← hb]

/-- Settles O44: the invariants say that the held schedule is the one computed again. -/
theorem reexpansionChangesNoRegister : Obligations.ReexpansionChangesNoRegister := by
  intro s b hi hb
  obtain ⟨k, hk⟩ := klen_of_inv hi hb
  exact ⟨_, execExpand_of_inv hi b hk, by rw [answered_toRegs, holdSchedule_eq_self hi hb hk]⟩

/-! ### RDRK (41_key_schedule.md R143) -/

theorem execRdrk_none (r : Nat) {s : State} (h0 : s.ksb = 0#8) :
    execRdrk r s = .next (s.answered (errResponse 0x03#8 0#16)) := by
  rw [execRdrk, if_pos h0]
  rfl

theorem execRdrk_held (r : Nat) {s : State} {b : Size} (hb : s.ksb = b.toReg) :
    execRdrk r s = withRoundKey r s fun rk => respondOk rk s := by
  rw [execRdrk, if_neg (hb ▸ size_toReg_ne_zero b)]

theorem roundKey_getElem? (b : Size) (w : List Byte) (r : Nat) {i : Nat} (hi : i < b.bytes) :
    (roundKey b w r)[i]? = w[r * b.bytes + i]? := by
  rw [roundKey, List.getElem?_take_of_lt hi, List.getElem?_drop]

/-- Settles O11: no schedule, an index past the last round key, or the bytes of a round key. -/
theorem rdrkReturnsRoundKey : Obligations.RdrkReturnsRoundKey := by
  intro r s
  refine ⟨execRdrk_none r, fun b k hb hk => ⟨fun hr => ?_, fun hi hr => ?_⟩⟩
  · exact (execRdrk_held r hb).trans (withRoundKey_range hb hk hr _)
  · exact ⟨roundKey b s.ks r, (execRdrk_held r hb).trans (withRoundKey_of_inv hi hb hk hr _),
      roundKey_length (schedule_of_inv hi hb hk).2 hr, fun i hib => roundKey_getElem? b s.ks r hib⟩

/-! ### STAT (41_key_schedule.md R144) -/

theorem execStat_none {s : State} (h0 : s.ksb = 0#8) :
    execStat s = .next (s.answered (okResponse [s.klen, s.ksb, s.slen, 0#8])) := by
  rw [execStat, if_pos h0, respondOk_eq]

theorem execStat_held {s : State} {b k : Size} (hb : s.ksb = b.toReg) (hk : s.klen = k.toReg) :
    execStat s = .next
      (s.answered (okResponse [s.klen, s.ksb, s.slen, BitVec.ofNat 8 (roundCount b k)])) := by
  rw [execStat, if_neg (hb ▸ size_toReg_ne_zero b), hb, hk, roundCount?_toReg]
  rfl

/-- Settles O12: without a schedule, and with one. -/
theorem statReturnsLengthsAndRoundCount : Obligations.StatReturnsLengthsAndRoundCount := fun _ =>
  ⟨execStat_none, fun _ _ => execStat_held⟩

end Sys2Proof.Machine

/-! Proofs of the family 42_fwd_transform.md: the block commands LDST (R170) and RDST (R171), the forward transforms
(R172 to R175), Encrypt (R176), ENC (R177), and ENC as a run of single commands (R178). -/

namespace Sys2Proof.Machine

/-! ### LDST and RDST (42_fwd_transform.md R170, R171) -/

theorem st_length_of_inv {s : Regs} (hi : s.Inv) {b : Size} (hs : s.slen = b.toReg) : s.st.length = b.bytes := by
  rw [hi.stLength, hs, size_toReg_toNat]

theorem execLdst_bytes (b : Size) (din : BitVec 256) (s : State) :
    execLdst b.bytes din s = .next ((holdBlock b (busTake din b.bytes) s).answered (okResponse [])) := by
  rw [execLdst, size_ofNat?_bytes]
  rfl

theorem execLdst_blockSize {b : Nat} (hb : b ∉ [16, 24, 32]) (din : BitVec 256) (s : State) :
    execLdst b din s = .next (s.answered (errResponse 0x02#8 (BitVec.ofNat 16 (8 * b)))) := by
  rw [execLdst, size_ofNat?_eq_none.mpr hb]
  rfl

/-- Settles O13: the size check passes or fails. -/
theorem ldstLoadsBlock : Obligations.LdstLoadsBlock := fun din s =>
  ⟨fun b => execLdst_bytes b din s, fun _ hb => execLdst_blockSize hb din s⟩

theorem execRdst_of_inv {s : State} (hi : s.Inv) (h0 : s.slen ≠ 0#8) :
    execRdst s = .next (s.answered (okResponse s.st)) := by
  rw [execRdst, withBlock_of_inv hi h0, respondOk_eq]

/-- Settles O14: no block, or the bytes of the block. -/
theorem rdstReturnsBlock : Obligations.RdstReturnsBlock := fun _ =>
  ⟨fun h0 => withBlock_none h0 _, execRdst_of_inv⟩

/-! ### Single bytes of a transformed block -/

theorem byteAt_eq_getElem {l : List Byte} {i : Nat} (h : i < l.length) : byteAt l i = l[i] :=
  List.getD_eq_getElem l 0#8 h

theorem byteAt_map (f : Byte → Byte) {l : List Byte} {i : Nat} (h : i < l.length) :
    byteAt (l.map f) i = f (byteAt l i) := by
  rw [byteAt_eq_getElem h, byteAt_eq_getElem (by rwa [List.length_map]), List.getElem_map]

theorem byteAt_xorBytes {s t : List Byte} {i : Nat} (hs : i < s.length) (ht : i < t.length) :
    byteAt (xorBytes s t) i = byteAt s i ^^^ byteAt t i := by
  rw [byteAt_eq_getElem hs, byteAt_eq_getElem ht, byteAt_eq_getElem (by simp [hs, ht])]
  exact List.getElem_zipWith

theorem byteAt_roundKey (b : Size) (w : List Byte) (r : Nat) {i : Nat} (hi : i < b.bytes) :
    byteAt (roundKey b w r) i = byteAt w (r * b.bytes + i) := by
  rw [byteAt, byteAt, List.getD_eq_getElem?_getD, List.getD_eq_getElem?_getD, roundKey_getElem? b w r hi]

theorem byteAt_gather {t : List Nat} {i j : Nat} (h : t[i]? = some j) (s : List Byte) :
    byteAt (gather t s) i = byteAt s j := by
  rw [byteAt, List.getD_eq_getElem?_getD, gather, List.getElem?_map, h, Option.map_some, Option.getD_some]

theorem wordAt_cons_four (a0 a1 a2 a3 : Byte) (l : List Byte) (c : Nat) :
    wordAt (a0 :: a1 :: a2 :: a3 :: l) (4 * (c + 1)) = wordAt l (4 * c) := rfl

/-- A whole column of the result is `f` of the same column. -/
theorem wordAt_mapColumns (f : Word → Word) {s : List Byte} {c : Nat} (hc : 4 * c + 4 ≤ s.length) :
    wordAt (mapColumns f s) (4 * c) = f (wordAt s (4 * c)) := by
  induction s using mapColumns.induct generalizing c with
  | case1 a0 a1 a2 a3 rest ih =>
    rw [mapColumns]
    cases c with
    | zero => rfl
    | succ c =>
      rw [wordAt_cons_four, ← ih (by simp at hc; omega)]
      rfl
  | case2 rest hshort =>
    match rest, hc with
    | a0 :: a1 :: a2 :: a3 :: rest, _ => exact absurd rfl (hshort a0 a1 a2 a3 rest)

/-! ### ADDRK (42_fwd_transform.md R172) -/

theorem execAddrk_seq (r : Nat) {s : State} (h : s.slen = 0#8 ∨ s.ksb = 0#8 ∨ s.slen ≠ s.ksb) :
    execAddrk r s = .next (s.answered (errResponse 0x03#8 0#16)) := by
  rw [execAddrk, if_pos h]
  rfl

section
variable {s : State} {b k : Size} (hs : s.slen = b.toReg) (hb : s.ksb = b.toReg)
include hs hb

theorem execAddrk_held (r : Nat) :
    execAddrk r s = withRoundKey r s fun rk => transformBlock (fun blk => xorBytes blk rk) s := by
  rw [execAddrk, hs, hb, if_neg (by simp [size_toReg_ne_zero])]

theorem execAddrk_of_inv (hi : s.Inv) (hk : s.klen = k.toReg) {r : Nat} (hr : r ≤ roundCount b k) :
    execAddrk r s = .next (State.answered { s with st := addRoundKey b s.ks r s.st } (okResponse [])) := by
  have hl := st_length_of_inv hi hs
  rw [execAddrk_held hs hb, withRoundKey_of_inv hi hb hk hr]
  exact transformBlock_of_inv hi (hs ▸ size_toReg_ne_zero b)
    ((addRoundKey_length (schedule_of_inv hi hb hk).2 hr hl).trans hl.symm)

end

/-- Settles O15: no schedule for the block, an index past the last round key, or the XOR with a round key. -/
theorem addrkXorsRoundKey : Obligations.AddrkXorsRoundKey := by
  intro r s
  refine ⟨execAddrk_seq r, fun b k hs hb hk => ⟨fun hr => ?_, fun hi hr => ?_⟩⟩
  · exact (execAddrk_held hs hb r).trans (withRoundKey_range hb hk hr _)
  · have hl := st_length_of_inv hi hs
    have hw := (schedule_of_inv hi hb hk).2
    refine ⟨_, execAddrk_of_inv hs hb hi hk hr, (addRoundKey_length hw hr hl).trans hl.symm, fun i hib => ?_⟩
    rw [addRoundKey, byteAt_xorBytes (by rwa [hl]) (by rwa [roundKey_length hw hr]), byteAt_roundKey b s.ks r hib]

/-- XOR with the same bytes is its own inverse. -/
theorem xorBytes_xorBytes {s t : List Byte} (h : s.length ≤ t.length) : xorBytes (xorBytes s t) t = s := by
  refine List.ext_getElem (by simp [h]) fun i _ _ => ?_
  simp [xorBytes]

theorem addRoundKey_addRoundKey {b k : Size} {w s : List Byte} (hw : w.length = scheduleBytes b k) {r : Nat}
    (hr : r ≤ roundCount b k) (hs : s.length = b.bytes) : addRoundKey b w r (addRoundKey b w r s) = s :=
  xorBytes_xorBytes (by rw [hs, roundKey_length hw hr])

/-- Settles O38: the second command finds the same schedule, and adds the same round key to the block. -/
theorem addrkTwiceRestoresBlock : Obligations.AddrkTwiceRestoresBlock := by
  intro s b k r hi hs hb hk hr
  have hl := st_length_of_inv hi hs
  have hw := (schedule_of_inv hi hb hk).2
  have hi' := replaceBlock_inv hi ((addRoundKey_length hw hr hl).trans hl.symm)
  refine ⟨_, _, execAddrk_of_inv hs hb hi hk hr,
    execAddrk_of_inv (s := State.answered { s with st := addRoundKey b s.ks r s.st } _) hs hb hi' hk hr, ?_⟩
  simp only [answered_toRegs, addRoundKey_addRoundKey hw hr hl]

/-! ### SUBB (42_fwd_transform.md R173) -/

theorem execSubb_of_inv {s : State} (hi : s.Inv) (h0 : s.slen ≠ 0#8) :
    execSubb s = .next (State.answered { s with st := subBytes s.st } (okResponse [])) :=
  transformBlock_of_inv hi h0 (subBytes_length s.st)

/-- Settles O16: no block, or each byte through the table. -/
theorem subbSubstitutesEveryByte : Obligations.SubbSubstitutesEveryByte := fun s =>
  ⟨fun h0 => withBlock_none h0 _, fun hi h0 =>
    ⟨_, execSubb_of_inv hi h0, subBytes_length s.st, fun _ hib => byteAt_map sbox (hi.stLength ▸ hib)⟩⟩

/-! ### SHROW (42_fwd_transform.md R174) -/

theorem execShrow_of_inv {s : State} (hi : s.Inv) {b : Size} (hs : s.slen = b.toReg) :
    execShrow s = .next (State.answered { s with st := shiftRows b s.st } (okResponse [])) :=
  transformSized_of_inv hi hs (shiftRows_length b s.st)

/-- Settles O17: no block, or each byte from where the table says, which is a rotation of the rows. -/
theorem shrowRotatesRowsLeft : Obligations.ShrowRotatesRowsLeft := by
  refine fun s => ⟨fun h0 => withBlock_none h0 _, fun hi b hs => ⟨_, execShrow_of_inv hi hs, ?_, fun i hib => ?_,
    fun r c hc => byteAt_gather (rowShift_getElem? b r c hc) s.st⟩⟩
  · rw [shiftRows_length, st_length_of_inv hi hs]
  · have hentry : (rowShift b)[i]? = some ((rowShift b).getD i 0) := by
      rw [List.getD_eq_getElem _ _ (by rwa [rowShift_length]), List.getElem?_eq_getElem]
    exact byteAt_gather hentry s.st

/-! ### MIXC (42_fwd_transform.md R175) -/

theorem execMixc_of_inv {s : State} (hi : s.Inv) (h0 : s.slen ≠ 0#8) :
    execMixc s = .next (State.answered { s with st := mixColumns s.st } (okResponse [])) :=
  transformBlock_of_inv hi h0 (mixColumns_length s.st)

/-- Settles O18: no block, or the four sums of each column. -/
theorem mixcMixesEveryColumn : Obligations.MixcMixesEveryColumn := by
  refine fun s => ⟨fun h0 => withBlock_none h0 _, fun hi h0 =>
    ⟨_, execMixc_of_inv hi h0, mixColumns_length s.st, fun c hc => ?_⟩⟩
  have hcol : wordAt (mixColumns s.st) (4 * c) = mixColumn (wordAt s.st (4 * c)) :=
    wordAt_mapColumns mixColumn (by rw [hi.stLength]; omega)
  exact ⟨congrArg Word.b0 hcol, congrArg Word.b1 hcol, congrArg Word.b2 hcol, congrArg Word.b3 hcol⟩

/-! ### Encrypt (42_fwd_transform.md R176) -/

/-- A sequence of blocks that follows the full rounds `1 .. n` is the sequence that the model computes. -/
theorem encRounds_eq_of_rounds {b : Size} {w : List Byte} {S : Nat → List Byte} {n : Nat}
    (h : ∀ r, 1 ≤ r → r ≤ n → S r = encRound b w r (S (r - 1))) : encRounds b w n (S 0) = S n := by
  induction n with
  | zero => rfl
  | succ n ih =>
    rw [encRounds, ih fun r h1 hr => h r h1 (by omega)]
    exact (h (n + 1) (by omega) le_rfl).symm

/-- Settles O27: the sequence `S` is the model's own, and the final round comes after it. -/
theorem encryptRoundByRound : Obligations.EncryptRoundByRound := by
  intro b k key p S nr w h0 hrounds
  refine ⟨?_, fun hkey hp => (encrypt_length b k hkey p).trans hp.symm⟩
  rw [encrypt, encryptWith, ← h0, encRounds_eq_of_rounds hrounds]

/-! ### ENC (42_fwd_transform.md R177) -/

theorem cipherCommand_blockSize (f : Size → Size → List Byte → List Byte → List Byte) {b : Nat}
    (hb : b ∉ [16, 24, 32]) (din : BitVec 256) (s : State) :
    cipherCommand f b din s = .next (s.answered (errResponse 0x02#8 (BitVec.ofNat 16 (8 * b)))) := by
  rw [cipherCommand, size_ofNat?_eq_none.mpr hb]
  rfl

theorem cipherCommand_none (f : Size → Size → List Byte → List Byte → List Byte) (b : Size) (din : BitVec 256)
    {s : State} (h0 : s.klen = 0#8) :
    cipherCommand f b.bytes din s = .next (s.answered (errResponse 0x03#8 0#16)) := by
  rw [cipherCommand, size_ofNat?_bytes]
  exact withKey_none h0 _

/-- Settles O19: the size check comes before the key check, and the invariants give the key's bytes. -/
theorem encEncryptsUnderHeldKey : Obligations.EncEncryptsUnderHeldKey := fun p s =>
  ⟨fun hi b k hk => ⟨encrypt_length b k (key_length_of_inv hi hk) _, cipherCommand_of_inv hi hk p⟩,
    fun _ hb => cipherCommand_blockSize encrypt hb p s, fun b h0 => cipherCommand_none encrypt b p h0⟩

/-! ### Commands run by the machine (00_scope.md R8)

Taken at the registers alone, so that the steps of a run compose without the host's lists. -/

/-- The step that takes `i` as the host's next command turns the registers `g` into `g'` and answers `r`, whatever
else the host's lists hold. -/
def Answers (i : Instr) (g : Regs) (r : Response) (g' : Regs) : Prop :=
  ∀ ib ob, step ⟨g, .command (encode i) :: ib, ob⟩ = .next ⟨g', ib, ob ++ [r]⟩

theorem answers_of_exec {i : Instr} (hw : i.wellFormed = true) {g g' : Regs} {r : Response}
    (h : ∀ ib ob, exec i ⟨g, ib, ob⟩ = .next ⟨g', ib, ob ++ [r]⟩) : Answers i g r g' := fun ib ob =>
  ((step_of_command rfl).trans (stepCommand_of_decode (decodeOfEncodeIsIdentity i hw) _)).trans (h ib ob)

theorem run_of_step {s t : State} (h : step s = .next t) (n : Nat) : core.run (n + 1) s = core.run n t := by
  have hstep : core.step s = .next t := h
  simp only [Host.Core.run, hstep]

/-- The commands turn the registers `g` into `g'`, each with the answer `OK` without data. -/
inductive QuietRun : List Instr → Regs → Regs → Prop
  | nil (g : Regs) : QuietRun [] g g
  | cons {i : Instr} {is : List Instr} {g g' g'' : Regs} (h : Answers i g (okResponse []) g')
      (hrest : QuietRun is g' g'') : QuietRun (i :: is) g g''

theorem QuietRun.append {is js : List Instr} {g g' g'' : Regs} (h : QuietRun is g g') (hj : QuietRun js g' g'') :
    QuietRun (is ++ js) g g'' := by
  induction h with
  | nil => exact hj
  | cons hi _ ih => exact .cons hi (ih hj)

theorem commandEvents_append (is js : List Instr) :
    commandEvents (is ++ js) = commandEvents is ++ commandEvents js := List.map_append

/-- What the machine has done after the commands of a quiet run. -/
theorem QuietRun.run {is : List Instr} {g g' : Regs} (h : QuietRun is g g') (n : Nat) (ib : List HostEvent)
    (ob : List Response) : core.run (is.length + n) ⟨g, commandEvents is ++ ib, ob⟩ =
      core.run n ⟨g', ib, ob ++ List.replicate is.length (okResponse [])⟩ := by
  induction h generalizing ob with
  | nil => simp [commandEvents]
  | @cons i is _ _ _ hi _ ih =>
    rw [List.length_cons, Nat.add_right_comm, List.replicate_succ, List.append_cons, ← ih]
    exact run_of_step (hi _ ob) _

/-! ### Single commands on a block whose schedule is held (42_fwd_transform.md R172 to R175) -/

/-- A key of length `k`, a schedule for blocks of length `b`, and such a block. -/
structure Regs.Ready (g : Regs) (b k : Size) : Prop where
  inv : g.Inv
  slen : g.slen = b.toReg
  ksb : g.ksb = b.toReg
  klen : g.klen = k.toReg

theorem Regs.Ready.ks_length {g : Regs} {b k : Size} (hg : g.Ready b k) : g.ks.length = scheduleBytes b k :=
  (schedule_of_inv (s := ⟨g, [], []⟩) hg.inv hg.ksb hg.klen).2

/-- A round index of the schedule fits the argument's byte. -/
theorem addrk_wellFormed {b k : Size} {r : Nat} (hr : r ≤ roundCount b k) : (Instr.addrk r).wellFormed = true := by
  have : roundCount b k ≤ 14 := by cases b <;> cases k <;> decide
  exact wellFormed_iff.mpr (by simp only [argOf]; omega)

theorem roundCount_pos (b k : Size) : 0 < roundCount b k := by cases b <;> cases k <;> decide

section
variable {g : Regs} {b k : Size} (hg : g.Ready b k) {blk : List Byte} (hl : blk.length = b.bytes)
include hg

theorem Regs.Ready.slen_ne_zero : g.slen ≠ 0#8 := hg.slen ▸ size_toReg_ne_zero b

include hl

theorem Regs.Ready.inv_block : Regs.Inv { g with st := blk } :=
  replaceBlock_inv hg.inv (hl.trans (st_length_of_inv hg.inv hg.slen).symm)

theorem addrk_answers {r : Nat} (hr : r ≤ roundCount b k) :
    Answers (.addrk r) { g with st := blk } (okResponse []) { g with st := addRoundKey b g.ks r blk } :=
  answers_of_exec (addrk_wellFormed hr) fun ib ob =>
    execAddrk_of_inv (s := ⟨{ g with st := blk }, ib, ob⟩) hg.slen hg.ksb (hg.inv_block hl) hg.klen hr

theorem subb_answers : Answers .subb { g with st := blk } (okResponse []) { g with st := subBytes blk } :=
  answers_of_exec rfl fun ib ob => execSubb_of_inv (s := ⟨_, ib, ob⟩) (hg.inv_block hl) hg.slen_ne_zero

theorem shrow_answers : Answers .shrow { g with st := blk } (okResponse []) { g with st := shiftRows b blk } :=
  answers_of_exec rfl fun ib ob => execShrow_of_inv (s := ⟨_, ib, ob⟩) (hg.inv_block hl) hg.slen

theorem mixc_answers : Answers .mixc { g with st := blk } (okResponse []) { g with st := mixColumns blk } :=
  answers_of_exec rfl fun ib ob => execMixc_of_inv (s := ⟨_, ib, ob⟩) (hg.inv_block hl) hg.slen_ne_zero

theorem rdst_answers : Answers .rdst { g with st := blk } (okResponse blk) { g with st := blk } :=
  answers_of_exec rfl fun ib ob => execRdst_of_inv (s := ⟨_, ib, ob⟩) (hg.inv_block hl) hg.slen_ne_zero

end

section
variable {s : State} (hi : s.Inv) (b : Size) {k : Size} (hk : s.klen = k.toReg)
include hi hk

theorem expand_answers :
    Answers (.expand b.bytes) s.toRegs (okResponse []) (holdSchedule b k s.key s).toRegs :=
  answers_of_exec (by cases b <;> rfl) fun ib ob => execExpand_of_inv (s := ⟨s.toRegs, ib, ob⟩) hi b hk

theorem ready_of_hold {blk : List Byte} (hl : blk.length = b.bytes) :
    (holdBlock b blk (holdSchedule b k s.key s)).Ready b k where
  inv := holdBlock_inv (holdSchedule_inv hi b hk) b hl
  slen := rfl
  ksb := rfl
  klen := hk

end

theorem ldst_answers (b : Size) (din : BitVec 256) (s : State) :
    Answers (.ldst b.bytes din) s.toRegs (okResponse []) (holdBlock b (busTake din b.bytes) s).toRegs :=
  answers_of_exec (by cases b <;> rfl) fun ib ob => execLdst_bytes b din ⟨s.toRegs, ib, ob⟩

/-! ### ENC as a run of single commands (42_fwd_transform.md R178) -/

theorem encRoundCommands_length (n : Nat) : (encRoundCommands n).length = 4 * n := by
  induction n with
  | zero => rfl
  | succ n ih => simp [encRoundCommands, ih]; omega

section
variable {g : Regs} {b k : Size} (hg : g.Ready b k) {blk : List Byte} (hl : blk.length = b.bytes)
include hg hl

theorem encRounds_length {n : Nat} (hn : n ≤ roundCount b k) : (encRounds b g.ks n blk).length = b.bytes := by
  cases n with
  | zero => exact hl
  | succ n => exact encRound_length hg.ks_length hn _

theorem encRound_quiet {r : Nat} (hr : r ≤ roundCount b k) : QuietRun [.subb, .shrow, .mixc, .addrk r]
    { g with st := blk } { g with st := encRound b g.ks r blk } :=
  .cons (subb_answers hg hl) <|
  .cons (shrow_answers hg (by rw [subBytes_length, hl])) <|
  .cons (mixc_answers hg (shiftRows_length b _)) <|
  .cons (addrk_answers hg (by rw [mixColumns_length, shiftRows_length]) hr) <|
  .nil _

theorem encRounds_quiet {n : Nat} (hn : n ≤ roundCount b k) :
    QuietRun (encRoundCommands n) { g with st := blk } { g with st := encRounds b g.ks n blk } := by
  induction n with
  | zero => exact .nil _
  | succ n ih =>
    exact (ih (by omega)).append (encRound_quiet hg (encRounds_length hg hl (by omega)) hn)

/-- The commands of Encrypt on a block that is loaded, up to the read of the result. -/
theorem encryptWith_quiet : QuietRun
    (.addrk 0 :: (encRoundCommands (roundCount b k - 1) ++ [Instr.subb, .shrow, .addrk (roundCount b k)]))
    { g with st := blk } { g with st := encryptWith b g.ks (roundCount b k) blk } :=
  have h0 := addRoundKey_length hg.ks_length (Nat.zero_le _) hl
  have hn := encRounds_length hg h0 (Nat.sub_le _ 1)
  .cons (addrk_answers hg hl (Nat.zero_le _)) <|
  .append (encRounds_quiet hg h0 (Nat.sub_le _ 1)) <|
  .cons (subb_answers hg hn) <|
  .cons (shrow_answers hg (by rw [subBytes_length, hn])) <|
  .cons (addrk_answers hg (shiftRows_length b _) le_rfl) <|
  .nil _

end

/-- All the commands of the sequence before the last. -/
def encQuietCommands (b nr : Nat) (p : BitVec 256) : List Instr :=
  .expand b :: .ldst b p :: .addrk 0 :: (encRoundCommands (nr - 1) ++ [Instr.subb, .shrow, .addrk nr])

theorem encCommands_eq (b nr : Nat) (p : BitVec 256) :
    encCommands b nr p = encQuietCommands b nr p ++ [Instr.rdst] := by
  simp [encCommands, encQuietCommands]

theorem encQuietCommands_length (b : Nat) {nr : Nat} (hnr : 0 < nr) (p : BitVec 256) :
    (encQuietCommands b nr p).length = 4 * nr + 2 := by
  simp [encQuietCommands, encRoundCommands_length]
  omega

/-- Before its last command the sequence has left the registers that `ENC` leaves. -/
theorem encQuietCommands_quiet {s : State} (hi : s.Inv) (b : Size) {k : Size} (hk : s.klen = k.toReg)
    (p : BitVec 256) : QuietRun (encQuietCommands b.bytes (roundCount b k) p) s.toRegs
      (holdBlock b (encrypt b k s.key (busTake p b.bytes)) (holdSchedule b k s.key s)).toRegs := by
  have hl := busTake_length p b.bytes
  exact .cons (expand_answers hi b hk) <|
    .cons (ldst_answers b p (holdSchedule b k s.key s)) <|
    encryptWith_quiet (ready_of_hold hi b hk hl) hl

theorem allOk_replicate_append (n : Nat) (data : List Byte) :
    allOk (List.replicate n (okResponse []) ++ [okResponse data]) = true := by
  simp [allOk, okResponse, statusOk]

/-- Settles O41: the sequence is a quiet run that ends in the registers of `ENC`, and `RDST` returns the block. -/
theorem encEqualsItsCommandSequence : Obligations.EncEqualsItsCommandSequence := by
  intro s b k p hi hk nr
  have hlen := encQuietCommands_length b.bytes (roundCount_pos b k) p
  have hc := encrypt_length b k (key_length_of_inv hi hk) (busTake p b.bytes)
  have hrdst := rdst_answers (ready_of_hold hi b hk hc) hc
  have hquiet := encQuietCommands_quiet hi b hk p
  have hrun := hquiet.run 1 (commandEvents [.rdst] ++ s.inbox) s.outbox
  rw [hlen, ← List.append_assoc, ← commandEvents_append, ← encCommands_eq] at hrun
  exact ⟨_, _, List.replicate (4 * nr + 2) (okResponse []), _, cipherCommand_of_inv hi hk p, rfl,
    hrun.trans (run_of_step (hrdst _ _) 0), rfl, rfl, rfl, List.length_replicate, allOk_replicate_append _ _⟩

end Sys2Proof.Machine

/-! Proofs of the family 43_inv_transform.md: the inverse transforms (R200 to R202), Decrypt (R203), DEC (R204), the
laws between the two directions (R205), and DEC as a run of single commands (R206). -/

namespace Sys2Proof.Machine

/-! ### ISUBB (43_inv_transform.md R200) -/

theorem execIsubb_of_inv {s : State} (hi : s.Inv) (h0 : s.slen ≠ 0#8) :
    execIsubb s = .next (State.answered { s with st := invSubBytes s.st } (okResponse [])) :=
  transformBlock_of_inv hi h0 (invSubBytes_length s.st)

/-- Settles O20: no block, or each byte through the inverse table. -/
theorem isubbSubstitutesBack : Obligations.IsubbSubstitutesBack := fun s =>
  ⟨fun h0 => withBlock_none h0 _, fun hi h0 =>
    ⟨_, execIsubb_of_inv hi h0, invSubBytes_length s.st, fun _ hib => byteAt_map invSbox (hi.stLength ▸ hib)⟩⟩

/-! ### ISHROW (43_inv_transform.md R201) -/

theorem execIshrow_of_inv {s : State} (hi : s.Inv) {b : Size} (hs : s.slen = b.toReg) :
    execIshrow s = .next (State.answered { s with st := invShiftRows b s.st } (okResponse [])) :=
  transformSized_of_inv hi hs (invShiftRows_length b s.st)

/-- The byte at `i` went to where the forward table takes it from (40_tables.md R121). -/
theorem invRowShift_rowShift (b : Size) : ∀ i < b.bytes, (invRowShift b)[(rowShift b).getD i 0]? = some i := by
  cases b <;> decide

theorem rowShift_invRowShift (b : Size) : ∀ i < b.bytes, (rowShift b)[(invRowShift b).getD i 0]? = some i := by
  cases b <;> decide

theorem byteAt_gather_getD {t : List Nat} {i : Nat} (h : i < t.length) (s : List Byte) :
    byteAt (gather t s) i = byteAt s (t.getD i 0) :=
  byteAt_gather (by rw [List.getD_eq_getElem _ _ h, List.getElem?_eq_getElem]) s

/-- Settles O21: no block, or each byte from where the inverse table says, which is a rotation of the rows and puts
each byte back where the forward table took it from. -/
theorem ishrowRotatesRowsRight : Obligations.IshrowRotatesRowsRight := by
  refine fun s => ⟨fun h0 => withBlock_none h0 _, fun hi b hs => ⟨_, execIshrow_of_inv hi hs, ?_, fun i hib => ?_,
    fun r c hc => byteAt_gather (invRowShift_getElem? b r c hc) s.st,
    fun i hib => byteAt_gather (invRowShift_rowShift b i hib) s.st⟩⟩
  · rw [invShiftRows_length, st_length_of_inv hi hs]
  · exact byteAt_gather_getD (by rwa [invRowShift_length]) s.st

/-! ### IMIXC (43_inv_transform.md R202) -/

theorem execImixc_of_inv {s : State} (hi : s.Inv) (h0 : s.slen ≠ 0#8) :
    execImixc s = .next (State.answered { s with st := invMixColumns s.st } (okResponse [])) :=
  transformBlock_of_inv hi h0 (invMixColumns_length s.st)

/-- Settles O22: no block, or the four sums of each column. -/
theorem imixcMixesEveryColumnBack : Obligations.ImixcMixesEveryColumnBack := by
  refine fun s => ⟨fun h0 => withBlock_none h0 _, fun hi h0 =>
    ⟨_, execImixc_of_inv hi h0, invMixColumns_length s.st, fun c hc => ?_⟩⟩
  have hcol : wordAt (invMixColumns s.st) (4 * c) = invMixColumn (wordAt s.st (4 * c)) :=
    wordAt_mapColumns invMixColumn (by rw [hi.stLength]; omega)
  exact ⟨congrArg Word.b0 hcol, congrArg Word.b1 hcol, congrArg Word.b2 hcol, congrArg Word.b3 hcol⟩

/-! ### Decrypt (43_inv_transform.md R203) -/

/-- A sequence of blocks that follows the rounds `n` down to `1` is the sequence that the model computes. -/
theorem decRounds_eq_of_rounds {b : Size} {w : List Byte} {S : Nat → List Byte} {n : Nat}
    (h : ∀ r, 1 ≤ r → r ≤ n → S (r - 1) = decRound b w r (S r)) : decRounds b w n (S n) = S 0 := by
  induction n with
  | zero => rfl
  | succ n ih =>
    have hround : S n = decRound b w (n + 1) (S (n + 1)) := h (n + 1) (by omega) le_rfl
    rw [decRounds, ← hround, ih fun r h1 hr => h r h1 (by omega)]

/-- Settles O28: the sequence `S` is the model's own, and round key 0 comes after it. -/
theorem decryptRoundByRound : Obligations.DecryptRoundByRound := by
  intro b k key c S nr w h0 hrounds
  rw [decrypt, decryptWith, ← h0, decRounds_eq_of_rounds hrounds]

/-! ### DEC (43_inv_transform.md R204) -/

/-- Settles O23: the size check comes before the key check, and the invariants give the key's bytes. -/
theorem decDecryptsUnderHeldKey : Obligations.DecDecryptsUnderHeldKey := fun c s =>
  ⟨fun hi b k hk => ⟨decrypt_length b k (key_length_of_inv hi hk) _, cipherCommand_of_inv hi hk c⟩,
    fun _ hb => cipherCommand_blockSize decrypt hb c s, fun b h0 => cipherCommand_none decrypt b c h0⟩

/-! ### The transforms of a block are inverse in pairs (43_inv_transform.md R205) -/

theorem invSubBytes_subBytes (s : List Byte) : invSubBytes (subBytes s) = s := by
  simp [invSubBytes, subBytes, Function.comp_def, invSbox_sbox]

theorem subBytes_invSubBytes (s : List Byte) : subBytes (invSubBytes s) = s := by
  simp [invSubBytes, subBytes, Function.comp_def, sbox_invSbox]

/-- A gather by `u` and then by `t` gives the sequence back when `u` has index `i` at entry `i` of `t`. -/
theorem gather_gather_of_inverse {t u : List Nat} {s : List Byte} (hl : t.length = s.length)
    (h : ∀ i < s.length, u[t.getD i 0]? = some i) : gather t (gather u s) = s := by
  refine List.ext_getElem ((gather_length _ _).trans hl) fun i hi hs => ?_
  rw [← byteAt_eq_getElem hi, byteAt_gather_getD (hl ▸ hs), byteAt_gather (h i hs), byteAt_eq_getElem hs]

theorem invShiftRows_shiftRows {b : Size} {s : List Byte} (hs : s.length = b.bytes) :
    invShiftRows b (shiftRows b s) = s :=
  gather_gather_of_inverse (by rw [hs, invRowShift_length]) (hs ▸ rowShift_invRowShift b)

theorem shiftRows_invShiftRows {b : Size} {s : List Byte} (hs : s.length = b.bytes) :
    shiftRows b (invShiftRows b s) = s :=
  gather_gather_of_inverse (by rw [hs, rowShift_length]) (hs ▸ invRowShift_rowShift b)

theorem mapColumns_mapColumns_of_inverse {f g : Word → Word} (h : ∀ a, f (g a) = a) (s : List Byte) :
    mapColumns f (mapColumns g s) = s := by
  induction s using mapColumns.induct with
  | case1 a0 a1 a2 a3 rest ih =>
    have hcons (x : Word) (l : List Byte) : mapColumns f (x.toList ++ l) = (f x).toList ++ mapColumns f l := rfl
    rw [mapColumns, hcons, h, ih]
    rfl
  | case2 rest hshort => simp only [mapColumns]

theorem invMixColumns_mixColumns (s : List Byte) : invMixColumns (mixColumns s) = s :=
  mapColumns_mapColumns_of_inverse (fun a => (mixColumnIsMatrixProduct.2.2 a).1) s

theorem mixColumns_invMixColumns (s : List Byte) : mixColumns (invMixColumns s) = s :=
  mapColumns_mapColumns_of_inverse (fun a => (mixColumnIsMatrixProduct.2.2 a).2) s

/-! ### Substitution commutes with a row shift (43_inv_transform.md R205) -/

/-- Bytes that are moved within the sequence may be mapped before or after. -/
theorem gather_map {t : List Nat} {s : List Byte} (f : Byte → Byte) (h : ∀ j ∈ t, j < s.length) :
    gather t (s.map f) = (gather t s).map f := by
  rw [gather, gather, List.map_map]
  exact List.map_congr_left fun j hj => byteAt_map f (h j hj)

theorem shiftRows_subBytes {b : Size} {s : List Byte} (hs : s.length = b.bytes) :
    shiftRows b (subBytes s) = subBytes (shiftRows b s) := gather_map sbox (hs ▸ rowShift_lt b)

theorem invShiftRows_invSubBytes {b : Size} {s : List Byte} (hs : s.length = b.bytes) :
    invShiftRows b (invSubBytes s) = invSubBytes (invShiftRows b s) := gather_map invSbox (hs ▸ invRowShift_lt b)

/-! ### The commands that replace the block (42_fwd_transform.md R173 to R175, 43_inv_transform.md R200 to R202) -/

/-- At a block of length `b` the command replaces it by its image under `f`, of the same length, and does nothing
else. -/
structure Performs (i : Instr) (b : Size) (f : List Byte → List Byte) : Prop where
  length : ∀ blk, blk.length = b.bytes → (f blk).length = b.bytes
  exec_eq : ∀ s : State, s.Inv → s.slen = b.toReg →
    exec i s = .next (State.answered { s with st := f s.st } (okResponse []))

section
variable (b : Size)

theorem subb_performs : Performs .subb b subBytes where
  length blk hl := (subBytes_length blk).trans hl
  exec_eq _ hi hs := execSubb_of_inv hi (hs ▸ size_toReg_ne_zero b)

theorem isubb_performs : Performs .isubb b invSubBytes where
  length blk hl := (invSubBytes_length blk).trans hl
  exec_eq _ hi hs := execIsubb_of_inv hi (hs ▸ size_toReg_ne_zero b)

theorem shrow_performs : Performs .shrow b (shiftRows b) where
  length blk _ := shiftRows_length b blk
  exec_eq _ hi hs := execShrow_of_inv hi hs

theorem ishrow_performs : Performs .ishrow b (invShiftRows b) where
  length blk _ := invShiftRows_length b blk
  exec_eq _ hi hs := execIshrow_of_inv hi hs

theorem mixc_performs : Performs .mixc b mixColumns where
  length blk hl := (mixColumns_length blk).trans hl
  exec_eq _ hi hs := execMixc_of_inv hi (hs ▸ size_toReg_ne_zero b)

theorem imixc_performs : Performs .imixc b invMixColumns where
  length blk hl := (invMixColumns_length blk).trans hl
  exec_eq _ hi hs := execImixc_of_inv hi (hs ▸ size_toReg_ne_zero b)

end

section
variable {i j : Instr} {b : Size} {f g : List Byte → List Byte} (hf : Performs i b f) (hg : Performs j b g)
  {s : State} (hi : s.Inv) (hs : s.slen = b.toReg)
include hf hg hi hs

/-- The first command leaves the invariants and the length, so the second performs its transform too. -/
theorem Performs.comp : ∃ t u, exec i s = .next t ∧ exec j t = .next u ∧
    u.toRegs = { s.toRegs with st := g (f s.st) } := by
  have hl := st_length_of_inv hi hs
  have hi' : Regs.Inv { s.toRegs with st := f s.st } := replaceBlock_inv hi ((hf.length _ hl).trans hl.symm)
  exact ⟨_, _, hf.exec_eq s hi hs, hg.exec_eq (State.answered { s with st := f s.st } (okResponse [])) hi' hs, rfl⟩

theorem Performs.restores (hinv : ∀ blk, blk.length = b.bytes → g (f blk) = blk) :
    ∃ t u, exec i s = .next t ∧ exec j t = .next u ∧ u.toRegs = s.toRegs := by
  obtain ⟨t, u, ht, hu, hregs⟩ := hf.comp hg hi hs
  exact ⟨t, u, ht, hu, by rw [hregs, hinv _ (st_length_of_inv hi hs)]⟩

theorem Performs.commutes (hcomm : ∀ blk, blk.length = b.bytes → g (f blk) = f (g blk)) :
    ∃ t t' u u', exec i s = .next t ∧ exec j t = .next u ∧
      exec j s = .next t' ∧ exec i t' = .next u' ∧ u.toRegs = u'.toRegs := by
  obtain ⟨t, u, ht, hu, hregs⟩ := hf.comp hg hi hs
  obtain ⟨t', u', ht', hu', hregs'⟩ := hg.comp hf hi hs
  exact ⟨t, t', u, u', ht, hu, ht', hu', by rw [hregs, hregs', hcomm _ (st_length_of_inv hi hs)]⟩

end

/-- A state that holds a block holds one of a valid length. -/
theorem slen_of_inv {s : Regs} (hi : s.Inv) (h0 : s.slen ≠ 0#8) : ∃ b : Size, s.slen = b.toReg :=
  (legalLen_iff.mp hi.slenLegal).resolve_left h0

/-- Settles O37: the block transforms of each pair are inverse to each other. -/
theorem inverseTransformRestoresBlock : Obligations.InverseTransformRestoresBlock := by
  intro s hi h0
  obtain ⟨b, hs⟩ := slen_of_inv hi h0
  simp only [List.forall_mem_cons]
  exact ⟨(subb_performs b).restores (isubb_performs b) hi hs fun blk _ => invSubBytes_subBytes blk,
    (isubb_performs b).restores (subb_performs b) hi hs fun blk _ => subBytes_invSubBytes blk,
    (shrow_performs b).restores (ishrow_performs b) hi hs fun _ => invShiftRows_shiftRows,
    (ishrow_performs b).restores (shrow_performs b) hi hs fun _ => shiftRows_invShiftRows,
    (mixc_performs b).restores (imixc_performs b) hi hs fun blk _ => invMixColumns_mixColumns blk,
    (imixc_performs b).restores (mixc_performs b) hi hs fun blk _ => mixColumns_invMixColumns blk,
    List.forall_mem_nil _⟩

/-- Settles O39: a row shift moves bytes within the block and a substitution maps each byte where it is. -/
theorem substitutionCommutesWithRowShift : Obligations.SubstitutionCommutesWithRowShift := by
  intro s hi h0
  obtain ⟨b, hs⟩ := slen_of_inv hi h0
  simp only [List.forall_mem_cons]
  exact ⟨(subb_performs b).commutes (shrow_performs b) hi hs fun _ => shiftRows_subBytes,
    (isubb_performs b).commutes (ishrow_performs b) hi hs fun _ => invShiftRows_invSubBytes,
    List.forall_mem_nil _⟩

/-! ### Decrypt undoes Encrypt, and Encrypt undoes Decrypt (43_inv_transform.md R205) -/

section
variable {b k : Size} {w : List Byte} (hw : w.length = scheduleBytes b k)
include hw

theorem decRound_encRound {r : Nat} (hr : r ≤ roundCount b k) {s : List Byte} (hs : s.length = b.bytes) :
    decRound b w r (encRound b w r s) = s := by
  rw [decRound, encRound, addRoundKey_addRoundKey hw hr (by simp), invMixColumns_mixColumns,
    invShiftRows_shiftRows (by simp [hs]), invSubBytes_subBytes]

theorem encRound_decRound {r : Nat} (hr : r ≤ roundCount b k) {s : List Byte} (hs : s.length = b.bytes) :
    encRound b w r (decRound b w r s) = s := by
  have hl := addRoundKey_length hw hr hs
  rw [decRound, encRound, subBytes_invSubBytes, shiftRows_invShiftRows (by simp [hl]), mixColumns_invMixColumns,
    addRoundKey_addRoundKey hw hr hs]

/-- As `encRounds_length`, for a schedule that no register holds. -/
theorem encRounds_length_of_schedule {n : Nat} (hn : n ≤ roundCount b k) {s : List Byte} (hs : s.length = b.bytes) :
    (encRounds b w n s).length = b.bytes := by
  cases n with
  | zero => exact hs
  | succ n => exact encRound_length hw hn _

theorem decRounds_encRounds {n : Nat} (hn : n ≤ roundCount b k) {s : List Byte} (hs : s.length = b.bytes) :
    decRounds b w n (encRounds b w n s) = s := by
  induction n with
  | zero => rfl
  | succ n ih =>
    have hl := encRounds_length_of_schedule hw (Nat.le_of_succ_le hn) hs
    rw [decRounds, encRounds, decRound_encRound hw hn hl, ih (Nat.le_of_succ_le hn)]

theorem encRounds_decRounds {n : Nat} (hn : n ≤ roundCount b k) {s : List Byte} (hs : s.length = b.bytes) :
    encRounds b w n (decRounds b w n s) = s := by
  induction n generalizing s with
  | zero => rfl
  | succ n ih =>
    rw [decRounds, encRounds, ih (Nat.le_of_succ_le hn) (decRound_length b w (n + 1) s), encRound_decRound hw hn hs]

theorem decryptWith_encryptWith {p : List Byte} (hp : p.length = b.bytes) :
    decryptWith b w (roundCount b k) (encryptWith b w (roundCount b k) p) = p := by
  have h0 := addRoundKey_length hw (Nat.zero_le _) hp
  have hn := encRounds_length_of_schedule hw (Nat.sub_le _ 1) h0
  rw [decryptWith, encryptWith, addRoundKey_addRoundKey hw le_rfl (shiftRows_length b _),
    invShiftRows_shiftRows (by rw [subBytes_length, hn]), invSubBytes_subBytes,
    decRounds_encRounds hw (Nat.sub_le _ 1) h0, addRoundKey_addRoundKey hw (Nat.zero_le _) hp]

theorem encryptWith_decryptWith {c : List Byte} (hc : c.length = b.bytes) :
    encryptWith b w (roundCount b k) (decryptWith b w (roundCount b k) c) = c := by
  have hnr := addRoundKey_length hw le_rfl hc
  have hfirst : (invSubBytes (invShiftRows b (addRoundKey b w (roundCount b k) c))).length = b.bytes := by simp
  rw [decryptWith, encryptWith, addRoundKey_addRoundKey hw (Nat.zero_le _) (decRounds_length _ hfirst),
    encRounds_decRounds hw (Nat.sub_le _ 1) hfirst, subBytes_invSubBytes, shiftRows_invShiftRows hnr,
    addRoundKey_addRoundKey hw le_rfl hc]

end

/-- A bus gives back the bytes that it was made of. -/
theorem busTake_busOf {l : List Byte} {n : Nat} (hl : l.length = n) (hn : n ≤ Config.busBytes) :
    busTake (busOf l) n = l := by
  refine List.ext_getElem ((busTake_length _ n).trans hl.symm) fun i _ hi => ?_
  have hbyte : busByte (busOf l) i = l[i] := by
    rw [busByte_busOf l (by omega), List.getElem?_eq_getElem hi, Option.getD_some]
  simpa [busTake] using hbyte

/-- A cipher command on the data `y` that another one returned, when the second cipher undoes the first. -/
theorem cipherCommand_restores {f g : Size → Size → List Byte → List Byte → List Byte} {s : State} (hi : s.Inv)
    {b k : Size} (hk : s.klen = k.toReg) {x : BitVec 256} {y : List Byte} (hf : f b k s.key (busTake x b.bytes) = y)
    (hl : y.length = b.bytes) (hg : g b k s.key y = busTake x b.bytes) :
    ∃ t u r, cipherCommand f b.bytes x s = .next t ∧ t.outbox = s.outbox ++ [r] ∧ r.status = 0x00#8 ∧
      cipherCommand g b.bytes r.dout t = .next u ∧ u.st = busTake x b.bytes ∧
      u.outbox = t.outbox ++ [okResponse (busTake x b.bytes)] := by
  have hfirst := cipherCommand_of_inv (f := f) (b := b) hi hk x
  rw [hf] at hfirst
  have hi' : (holdBlock b y (holdSchedule b k s.key s)).Inv := holdBlock_inv (holdSchedule_inv hi b hk) b hl
  have hsecond := cipherCommand_of_inv (f := g) (b := b)
    (s := State.answered (holdBlock b y (holdSchedule b k s.key s)) (okResponse y)) hi' hk (okResponse y).dout
  rw [show busTake (okResponse y).dout b.bytes = y from busTake_busOf hl (size_bytes_le b)] at hsecond
  exact ⟨_, _, _, hfirst, rfl, rfl, hsecond, hg, congrArg (fun p => _ ++ [okResponse p]) hg⟩

/-- Settles O40: the second command finds the same key, and so the same schedule. -/
theorem decryptionInvertsEncryption : Obligations.DecryptionInvertsEncryption := by
  intro s b k x hi hk
  have hkey := key_length_of_inv hi hk
  have hw := expandKey_length b k hkey
  have hx := busTake_length x b.bytes
  simp only [List.forall_mem_cons]
  exact ⟨cipherCommand_restores hi hk rfl (encrypt_length b k hkey _) (decryptWith_encryptWith hw hx),
    cipherCommand_restores hi hk rfl (decrypt_length b k hkey _) (encryptWith_decryptWith hw hx),
    List.forall_mem_nil _⟩

/-! ### DEC as a run of single commands (43_inv_transform.md R206) -/

theorem decRoundCommands_length (n : Nat) : (decRoundCommands n).length = 4 * n := by
  induction n with
  | zero => rfl
  | succ n ih => simp [decRoundCommands, ih]; omega

section
variable {g : Regs} {b k : Size} (hg : g.Ready b k) {blk : List Byte} (hl : blk.length = b.bytes)
include hg hl

theorem Performs.answers {i : Instr} {f : List Byte → List Byte} (hf : Performs i b f) (hw : i.wellFormed = true) :
    Answers i { g with st := blk } (okResponse []) { g with st := f blk } :=
  answers_of_exec hw fun ib ob => hf.exec_eq ⟨{ g with st := blk }, ib, ob⟩ (hg.inv_block hl) hg.slen

theorem decRound_quiet {r : Nat} (hr : r ≤ roundCount b k) : QuietRun [.addrk r, .imixc, .ishrow, .isubb]
    { g with st := blk } { g with st := decRound b g.ks r blk } :=
  have hr' := addRoundKey_length hg.ks_length hr hl
  .cons (addrk_answers hg hl hr) <|
  .cons ((imixc_performs b).answers hg hr' rfl) <|
  .cons ((ishrow_performs b).answers hg (by rw [invMixColumns_length, hr']) rfl) <|
  .cons ((isubb_performs b).answers hg (invShiftRows_length b _) rfl) <|
  .nil _

theorem decRounds_quiet {n : Nat} (hn : n ≤ roundCount b k) :
    QuietRun (decRoundCommands n) { g with st := blk } { g with st := decRounds b g.ks n blk } := by
  induction n generalizing blk with
  | zero => exact .nil _
  | succ n ih => exact (decRound_quiet hg hl hn).append (ih (decRound_length b _ _ _) (Nat.le_of_succ_le hn))

/-- The commands of Decrypt on a block that is loaded, up to the read of the result. -/
theorem decryptWith_quiet : QuietRun
    (.addrk (roundCount b k) :: .ishrow :: .isubb :: (decRoundCommands (roundCount b k - 1) ++ [Instr.addrk 0]))
    { g with st := blk } { g with st := decryptWith b g.ks (roundCount b k) blk } :=
  have hfirst : (invSubBytes (invShiftRows b (addRoundKey b g.ks (roundCount b k) blk))).length = b.bytes := by simp
  .cons (addrk_answers hg hl le_rfl) <|
  .cons ((ishrow_performs b).answers hg (addRoundKey_length hg.ks_length le_rfl hl) rfl) <|
  .cons ((isubb_performs b).answers hg (invShiftRows_length b _) rfl) <|
  .append (decRounds_quiet hg hfirst (Nat.sub_le _ 1)) <|
  .cons (addrk_answers hg (decRounds_length _ hfirst) (Nat.zero_le _)) <|
  .nil _

end

/-- All the commands of the sequence before the last. -/
def decQuietCommands (b nr : Nat) (c : BitVec 256) : List Instr :=
  .expand b :: .ldst b c :: .addrk nr :: .ishrow :: .isubb :: (decRoundCommands (nr - 1) ++ [Instr.addrk 0])

theorem decCommands_eq (b nr : Nat) (c : BitVec 256) :
    decCommands b nr c = decQuietCommands b nr c ++ [Instr.rdst] := by
  simp [decCommands, decQuietCommands]

theorem decQuietCommands_length (b : Nat) {nr : Nat} (hnr : 0 < nr) (c : BitVec 256) :
    (decQuietCommands b nr c).length = 4 * nr + 2 := by
  simp [decQuietCommands, decRoundCommands_length]
  omega

/-- Before its last command the sequence has left the registers that `DEC` leaves. -/
theorem decQuietCommands_quiet {s : State} (hi : s.Inv) (b : Size) {k : Size} (hk : s.klen = k.toReg)
    (c : BitVec 256) : QuietRun (decQuietCommands b.bytes (roundCount b k) c) s.toRegs
      (holdBlock b (decrypt b k s.key (busTake c b.bytes)) (holdSchedule b k s.key s)).toRegs := by
  have hl := busTake_length c b.bytes
  exact .cons (expand_answers hi b hk) <|
    .cons (ldst_answers b c (holdSchedule b k s.key s)) <|
    decryptWith_quiet (ready_of_hold hi b hk hl) hl

/-- Settles O42: the sequence is a quiet run that ends in the registers of `DEC`, and `RDST` returns the block. -/
theorem decEqualsItsCommandSequence : Obligations.DecEqualsItsCommandSequence := by
  intro s b k c hi hk nr
  have hlen := decQuietCommands_length b.bytes (roundCount_pos b k) c
  have hp := decrypt_length b k (key_length_of_inv hi hk) (busTake c b.bytes)
  have hrdst := rdst_answers (ready_of_hold hi b hk hp) hp
  have hrun := (decQuietCommands_quiet hi b hk c).run 1 (commandEvents [.rdst] ++ s.inbox) s.outbox
  rw [hlen, ← List.append_assoc, ← commandEvents_append, ← decCommands_eq] at hrun
  exact ⟨_, _, List.replicate (4 * nr + 2) (okResponse []), _, cipherCommand_of_inv hi hk c, rfl,
    hrun.trans (run_of_step (hrdst _ _) 0), rfl, rfl, rfl, List.length_replicate, allOk_replicate_append _ _⟩

end Sys2Proof.Machine

/-! Proofs of the family 60_exceptions.md: which command raises which error (R261), and that a command that fails
writes no register (R268). -/

namespace Sys2Proof.Machine

/-! ### The errors and the commands that raise them (60_exceptions.md R261) -/

/-- The values of `OP` that can end with `ERR_BLOCKSIZE`: `EXPAND`, `LDST`, `ENC`, `DEC` (60_exceptions.md R263). -/
def blockSizeOps : List (BitVec 8) := [0x11#8, 0x20#8, 0x2F#8, 0x3F#8]

/-- The values of `OP` that can end with `ERR_SEQ` (60_exceptions.md R264): `opcode_mem_seqOps`. -/
def seqOps : List (BitVec 8) := [0x11#8, 0x12#8, 0x21#8, 0x22#8, 0x23#8, 0x24#8, 0x25#8, 0x33#8, 0x34#8, 0x35#8,
  0x2F#8, 0x3F#8]

/-- The values of `OP` that can end with `ERR_RANGE`: `RDRK`, `ADDRK` (60_exceptions.md R265). -/
def rangeOps : List (BitVec 8) := [0x12#8, 0x22#8]

theorem opcode_mem_seqOps {i : Instr} (h : needsState i = true) : opcode i ∈ seqOps := by
  cases i with
  | ldkey | stat | ldst => cases h
  | _ => simp [opcode, seqOps]

/-- The table of 60_exceptions.md R261: the command `c` may end with the error. -/
inductive Raises (c : Command) : CommandError → Prop
  | keySize (hop : opField c.cw = 0x10#8) : Raises c (.keySize (argField c.cw).toNat)
  | blockSize (hop : opField c.cw ∈ blockSizeOps) : Raises c (.blockSize (argField c.cw).toNat)
  | seq (hop : opField c.cw ∈ seqOps) : Raises c .seq
  | range (hop : opField c.cw ∈ rangeOps) : Raises c (.range (argField c.cw).toNat)
  | illegal (hno : ∀ row ∈ opcodeTable, row.selectedBy c.cw = false) : Raises c (.illegal c.cw)

theorem not_selectedBy_of_decode_error {c : Command} {e : DecodeError} (h : decode c = .error e) :
    ∀ row ∈ opcodeTable, row.selectedBy c.cw = false := by
  intro row hrow
  by_contra hsel
  obtain ⟨i, hdec⟩ := exists_decode_iff.mpr (exists_row_iff.mp ⟨row, hrow, eq_true_of_ne_false hsel⟩)
  cases h.symm.trans hdec

/-! ### The response to a command (60_exceptions.md R261, R268) -/

/-- A selected command ends with an error of the table and no other effect, or it succeeds. -/
theorem ExecCase.error_or_ok {c : Command} {i : Instr} {s t : State} (h : ExecCase i s t) (hsel : c.Selects i) :
    (∃ e, Raises c e ∧ t = s.answered (errResponse e.status e.info)) ∨
    ∃ data, t.outbox = s.outbox ++ [okResponse data] := by
  obtain ⟨hop, harg, -⟩ := hsel
  cases h with
  | keySize k d hi =>
    subst hi
    exact .inl ⟨_, .keySize hop, by rw [harg]; rfl⟩
  | blockSize b d hi =>
    obtain ⟨rfl, hmem⟩ : argOf i = b ∧ opcode i ∈ blockSizeOps := by
      rcases hi with rfl | rfl | rfl | rfl <;> simp [argOf, opcode, blockSizeOps]
    exact .inl ⟨_, .blockSize (hop ▸ hmem), by rw [harg]; rfl⟩
  | seq hi => exact .inl ⟨_, .seq (hop ▸ opcode_mem_seqOps hi), rfl⟩
  | range r hi =>
    obtain ⟨rfl, hmem⟩ : argOf i = r ∧ opcode i ∈ rangeOps := by
      rcases hi with rfl | rfl <;> simp [argOf, opcode, rangeOps]
    exact .inl ⟨_, .range (hop ▸ hmem), by rw [harg]; rfl⟩
  | loadKey | loadBlock | expand | cipher | read | transform => exact .inr ⟨_, rfl⟩

/-- A step on a command raises an error of the table, with no effect but to take the event, or it succeeds. -/
theorem step_error_or_ok {s t : State} {c : Command} {rest : List HostEvent} (hin : s.inbox = .command c :: rest)
    (hstep : step s = .next t) :
    (∃ e, Raises c e ∧ t = State.answered { s with inbox := rest } (errResponse e.status e.info)) ∨
    ∃ data, t.outbox = s.outbox ++ [okResponse data] := by
  rw [step_of_command hin] at hstep
  cases hdec : decode c with
  | ok i =>
    rw [stepCommand_of_decode hdec] at hstep
    exact (exec_cases hstep).error_or_ok (selects_of_decode hdec)
  | error =>
    rw [stepCommand_of_error (by simp [hdec])] at hstep
    cases hstep
    exact .inl ⟨_, .illegal (not_selectedBy_of_decode_error hdec), rfl⟩

/-- What a step on a command can do, said of the response that it adds. -/
theorem response_error_or_ok {s t : State} {c : Command} {rest : List HostEvent} {r : Response}
    (hin : s.inbox = .command c :: rest) (hstep : step s = .next t) (hout : t.outbox = s.outbox ++ [r]) :
    (∃ e, Raises c e ∧ r = errResponse e.status e.info ∧ t = State.answered { s with inbox := rest } r) ∨
    ∃ data, r = okResponse data := by
  rcases step_error_or_ok hin hstep with ⟨e, he, rfl⟩ | ⟨data, hok⟩
  · obtain rfl : r = errResponse e.status e.info := by simpa using hout.symm
    exact .inl ⟨e, he, rfl, rfl⟩
  · exact .inr ⟨data, by simpa using hout.symm.trans hok⟩

theorem commandError_status_le (e : CommandError) : e.status.toNat ≤ 5 := by cases e <;> simp [CommandError.status]

/-- The `INFO` column of the table, read from the response's `STATUS`. -/
theorem Raises.info_eq_ite {c : Command} {e : CommandError} (h : Raises c e) : e.info =
    if e.status = 0x01#8 ∨ e.status = 0x02#8 then BitVec.ofNat 16 (8 * (argField c.cw).toNat)
    else if e.status = 0x03#8 then 0#16
    else if e.status = 0x04#8 then (argField c.cw).setWidth 16
    else c.cw := by
  cases h <;> simp [CommandError.info, CommandError.status]

/-- Settles O50: an error is answered on the registers as they were, and its `INFO` is the table's. -/
theorem failingCommandWritesNoRegister : Obligations.FailingCommandWritesNoRegister := by
  intro s t c rest r hin hstep hout hne
  rcases response_error_or_ok hin hstep hout with ⟨e, he, rfl, rfl⟩ | ⟨data, rfl⟩
  · exact ⟨rfl, rfl, rfl, rfl, commandError_status_le e, he.info_eq_ite⟩
  · exact absurd rfl hne

/-- `INFO` is wide enough for every argument and for its bit length. -/
theorem toNat_info_of_le (arg : BitVec 8) {n : Nat} (h : n ≤ 8 * arg.toNat) : (BitVec.ofNat 16 n).toNat = n := by
  rw [BitVec.toNat_ofNat]
  omega

/-- Settles O51: a success, or one of the five rows of the table. -/
theorem statusCodesAndWhoRaisesThem : Obligations.StatusCodesAndWhoRaisesThem := by
  intro s t c rest r hin hstep hout op arg
  rcases response_error_or_ok hin hstep hout with ⟨e, he, rfl, -⟩ | ⟨data, rfl⟩
  · right
    cases he with
    | keySize hop => exact .inl ⟨rfl, hop, toNat_info_of_le _ le_rfl⟩
    | blockSize hop => exact .inr (.inl ⟨rfl, hop, toNat_info_of_le _ le_rfl⟩)
    | seq hop => exact .inr (.inr (.inl ⟨rfl, hop, rfl⟩))
    | range hop => exact .inr (.inr (.inr (.inl ⟨rfl, hop, toNat_info_of_le (argField c.cw) (by omega)⟩)))
    | illegal hno => exact .inr (.inr (.inr (.inr ⟨rfl, hno, rfl⟩)))
  · exact .inl ⟨rfl, rfl⟩

end Sys2Proof.Machine

/-! Proofs of the family 70_reset_and_hazards.md: the step at a reset and without an event (R300, R301), the
schedule that `LDKEY` drops (R307), and that no run stops (R312). -/

namespace Sys2Proof.Machine

/-! ### A step that takes no command (70_reset_and_hazards.md R300, R301; logs 7, 9) -/

theorem step_of_noEvent {s : State} (h : s.inbox = []) : step s = .next s := by
  simp only [step, fetch, h]

theorem step_of_reset {s : State} {a : Option Command} {rest : List HostEvent} (h : s.inbox = .reset a :: rest) :
    step s = .next (resetRegs { s with inbox := rest }) := by
  simp only [step, fetch, h]

/-- Settles O7: `resetRegs` writes the six registers and keeps the host's lists. -/
theorem stepOfResetAndOfNoEvent : Obligations.StepOfResetAndOfNoEvent := fun _ =>
  ⟨step_of_noEvent, fun _ _ => step_of_reset⟩

/-! ### No schedule after LDKEY (70_reset_and_hazards.md R307) -/

/-- Only an expansion ends the absence of a schedule: every other effect keeps `KSB` or clears it. -/
theorem ExecCase.expands_of_ksb {i : Instr} {s t : State} (h : ExecCase i s t) (h0 : s.ksb = 0#8)
    (hne : t.ksb ≠ 0#8) : ∃ b din, i = .expand b ∨ i = .enc b din ∨ i = .dec b din := by
  cases h with
  | expand b _ _ hi => exact ⟨b.bytes, 0, .inl hi⟩
  | cipher b _ _ din _ hi => exact ⟨b.bytes, din, .inr (hi.imp And.left And.left)⟩
  | loadKey => exact absurd rfl hne
  | keySize | blockSize | seq | range | loadBlock | read | transform => exact absurd h0 hne

/-- Settles O43: what `LDKEY` writes, the sequence check of the two commands, and the effects that write `KSB`. -/
theorem ldkeyDropsScheduleUntilExpansion : Obligations.LdkeyDropsScheduleUntilExpansion :=
  ⟨fun k din s => ⟨_, execLdkey_bytes k din s, rfl, rfl, rfl, rfl⟩,
    fun r _ h0 => ⟨execRdrk_none r h0, execAddrk_seq r (.inr (.inl h0))⟩,
    fun _ _ _ h0 h => (exec_cases h).expands_of_ksb h0⟩

/-! ### No run stops (70_reset_and_hazards.md R312) -/

/-- A step answers a next state, and the invariants that made it answer still hold there. -/
theorem step_completes_inv {s : State} (hi : s.Inv) : ∃ t, step s = .next t ∧ t.Inv := by
  obtain ⟨t, ht, -⟩ := everyEventIsAnswered s hi
  exact ⟨t, ht, everyStepKeepsInvariants s t hi ht⟩

/-- Settles O49, by induction on the number of steps. -/
theorem noRunEverStops : Obligations.NoRunEverStops := by
  intro n
  induction n with
  | zero => exact fun s hi => ⟨s, rfl, hi⟩
  | succ n ih =>
    intro s hi
    obtain ⟨t, hstep, ht⟩ := step_completes_inv hi
    rw [run_of_step hstep]
    exact ih t ht

end Sys2Proof.Machine
